-- ==== Sys2Proof/Word.lean ====
section
/-! DEFINITION. The word types of the block: a stream element, a 16-bit encoded field, a register index (rule R7). -/

namespace Sys2Proof

/-- One element of the byte stream (R7: 8 bits). Bit 0 is the least significant bit (R8). -/
abbrev Byte := BitVec 8

/-- A 16-bit field of an encoded instruction: a displacement, an immediate or a direct address (R7). -/
abbrev Word := BitVec 16

/-- A `reg`, `rm` or immediate-form register field (R7: 3 bits, values 0 to 7). -/
abbrev RegIx := BitVec 3

end Sys2Proof
end

