-- ==== Sys2Proof/Syntax.lean ====
section
/-! DEFINITION. Syntax of the decoded subset DEC8086-MOV4 (rule R2): the four forms, the five r/m operand encodings, and one
constructor of `Instr` per row of spec/opcode_table.json. -/

namespace Sys2Proof

/-- The width flag `w`: 0 selects the byte name of a register, 1 the word name (R7, R15). -/
inductive Width where
  | byte
  | word
  deriving DecidableEq, Repr

/-- The direction flag `d`: which operand the `reg` field is (R65, glossary of R13). -/
inductive Direction where
  /-- `d = 0`: the `reg` operand is the source, the `rm` operand the destination. -/
  | regIsSrc
  /-- `d = 1`: the `reg` operand is the destination, the `rm` operand the source. -/
  | regIsDst
  deriving DecidableEq, Repr

/-- The four instruction forms the classifier selects (R53, glossary of R13). -/
inductive Form where
  | movImmReg
  | movRmReg
  | movMemAcc
  | movAccMem
  deriving DecidableEq, Repr

/-- The encodings of the r/m operand that the ModRM byte selects (R62). -/
inductive RmForm where
  /-- `mod = 11`: the register `rm`, no further byte. -/
  | reg (rm : RegIx)
  /-- `mod = 00`, `rm` not 110: a base expression, no displacement byte. -/
  | base (rm : RegIx)
  /-- `mod = 01`: a base expression and one displacement byte. -/
  | baseDisp8 (rm : RegIx) (disp8 : Byte)
  /-- `mod = 10`: a base expression and two displacement bytes. -/
  | baseDisp16 (rm : RegIx) (disp16 : Word)
  /-- `mod = 00`, `rm = 110`: two address bytes and no base. -/
  | direct (addr16 : Word)
  deriving DecidableEq, Repr

/-- The instructions of the block: one constructor per row of spec/opcode_table.json, its arguments the row's fields as
they are encoded. -/
inductive Instr where
  /-- `MOV r/m8, r8`, opcode byte 88 (R80). -/
  | movRm8R8 (reg : RegIx) (rm : RmForm)
  /-- `MOV r/m16, r16`, opcode byte 89 (R81). -/
  | movRm16R16 (reg : RegIx) (rm : RmForm)
  /-- `MOV r8, r/m8`, opcode byte 8A (R82). -/
  | movR8Rm8 (reg : RegIx) (rm : RmForm)
  /-- `MOV r16, r/m16`, opcode byte 8B (R83). -/
  | movR16Rm16 (reg : RegIx) (rm : RmForm)
  /-- `MOV r8, imm8`, opcode bytes B0 to B7 (R85). -/
  | movR8Imm8 (r : RegIx) (imm8 : Byte)
  /-- `MOV r16, imm16`, opcode bytes B8 to BF (R86). -/
  | movR16Imm16 (r : RegIx) (imm16 : Word)
  /-- `MOV ax, [addr16]` with bit 0 clear, opcode byte A0; still `ax` (R88). -/
  | movAxAddrBit0Clear (addr16 : Word)
  /-- `MOV ax, [addr16]`, opcode byte A1 (R89). -/
  | movAxAddr (addr16 : Word)
  /-- `MOV [addr16], ax` with bit 0 clear, opcode byte A2; still `ax` (R90). -/
  | movAddrAxBit0Clear (addr16 : Word)
  /-- `MOV [addr16], ax`, opcode byte A3 (R91). -/
  | movAddrAx (addr16 : Word)
  deriving DecidableEq, Repr

end Sys2Proof
end

