-- ==== Sys2Proof/WellFormed.lean ====
section
/-! DEFINITION. Which instruction terms an encoding exists for. The field types bound every other field; the one check is
that a base operand without displacement never has `rm = 110`, which encodes a direct address (rules R62, R63). -/

namespace Sys2Proof

/-- `mod = 00, rm = 110` is direct addressing, never a base operand (R62, R63). -/
def RmForm.wf : RmForm → Bool
  | .base rm => decide (rm ≠ 0b110#3)
  | .reg _ => true
  | .baseDisp8 _ _ => true
  | .baseDisp16 _ _ => true
  | .direct _ => true

/-- An instruction is well formed when its r/m operand, if it has one, is. -/
def Instr.wf : Instr → Bool
  | .movRm8R8 _ rm => rm.wf
  | .movRm16R16 _ rm => rm.wf
  | .movR8Rm8 _ rm => rm.wf
  | .movR16Rm16 _ rm => rm.wf
  | .movR8Imm8 _ _ => true
  | .movR16Imm16 _ _ => true
  | .movAxAddrBit0Clear _ => true
  | .movAxAddr _ => true
  | .movAddrAxBit0Clear _ => true
  | .movAddrAx _ => true

end Sys2Proof
end

