-- ==== Sys2Proof/Decode.lean ====
section
/-! DEFINITION. The opcode classifier, the decoder from bytes to instructions (total, rejecting by name), the length
function and the encoder, written from 30_encoding.md (rules R49 to R70). -/

namespace Sys2Proof

/-- What the decoder finds at the start of a byte sequence. -/
inductive Decoded where
  /-- An instruction, and the bytes after it. -/
  | instr (i : Instr) (rest : List Byte)
  /-- The first byte is none of the 24 recognised opcode bytes (R55). -/
  | unsupported (b : Byte)
  /-- A recognised opcode byte, and fewer bytes than its instruction has (R94). -/
  | truncated
  /-- There is no byte at all. -/
  | noBytes
  deriving DecidableEq, Repr

/-! ### Fields of bytes (R8: bit 0 is the least significant bit) -/

/-- The width bit of `MovRmReg` is `b[0]` (R50). -/
def rmWidth (b : Byte) : Width := if b.getLsbD 0 then .word else .byte

/-- The direction bit of `MovRmReg` is `b[1]` (R50); its polarity is R65's. -/
def rmDirection (b : Byte) : Direction := if b.getLsbD 1 then .regIsDst else .regIsSrc

/-- The width bit of `MovImmReg` is `b[3]` (R51). -/
def immWidth (b : Byte) : Width := if b.getLsbD 3 then .word else .byte

/-- The register index of `MovImmReg` is `b[2:0]` (R51). -/
def immReg (b : Byte) : RegIx := b.extractLsb' 0 3

/-- `mod = m[7:6]` (R58). -/
def modField (m : Byte) : BitVec 2 := m.extractLsb' 6 2

/-- `reg = m[5:3]` (R58). -/
def regField (m : Byte) : RegIx := m.extractLsb' 3 3

/-- `rm = m[2:0]` (R58). -/
def rmField (m : Byte) : RegIx := m.extractLsb' 0 3

/-- A two-byte field as a bit pattern: the byte at the lower offset is the low byte (R39). -/
def joinWord (lo hi : Byte) : Word := hi ++ lo

/-- The low byte of a two-byte field, stored first (R39). -/
def lowByte (v : Word) : Byte := v.extractLsb' 0 8

/-- The high byte of a two-byte field, stored second (R39). -/
def highByte (v : Word) : Byte := v.extractLsb' 8 8

/-! ### The classifier (R53) -/

/-- `Classify(b)`: the 4-bit test, the 6-bit test, then the two 7-bit tests, in the source's order (R53). -/
def classify (b : Byte) : Option Form :=
  if b.extractLsb' 4 4 = 0b1011#4 then some .movImmReg
  else if b.extractLsb' 2 6 = 0b100010#6 then some .movRmReg
  else if b.extractLsb' 1 7 = 0b1010000#7 then some .movMemAcc
  else if b.extractLsb' 1 7 = 0b1010001#7 then some .movAccMem
  else none

/-! ### The decoder -/

/-- The r/m operand that `mod` and `rm` select, and the bytes after it; `none` when its displacement or address bytes are
missing (R62 to R64). -/
def decodeRm (mod : BitVec 2) (rm : RegIx) (bs : List Byte) : Option (RmForm × List Byte) :=
  if mod = 0b11#2 then some (.reg rm, bs)
  else if mod = 0b00#2 then
    if rm = 0b110#3 then
      match bs with
      | lo :: hi :: rest => some (.direct (joinWord lo hi), rest)
      | _ => none
    else some (.base rm, bs)
  else if mod = 0b01#2 then
    match bs with
    | d8 :: rest => some (.baseDisp8 rm d8, rest)
    | _ => none
  else
    match bs with
    | lo :: hi :: rest => some (.baseDisp16 rm (joinWord lo hi), rest)
    | _ => none

/-- The instruction of form `MovRmReg` with the given flags: the opcode bytes 88, 89, 8A and 8B (R80 to R83). -/
def regMemInstr (d : Direction) (w : Width) (reg : RegIx) (rm : RmForm) : Instr :=
  match d, w with
  | .regIsSrc, .byte => .movRm8R8 reg rm
  | .regIsSrc, .word => .movRm16R16 reg rm
  | .regIsDst, .byte => .movR8Rm8 reg rm
  | .regIsDst, .word => .movR16Rm16 reg rm

/-- The bytes of one instruction of form `MovRmReg` (R49, R79). -/
def decodeRegMem : List Byte → Option (Instr × List Byte)
  | b0 :: m :: bs =>
    match decodeRm (modField m) (rmField m) bs with
    | some (rm, rest) => some (regMemInstr (rmDirection b0) (rmWidth b0) (regField m) rm, rest)
    | none => none
  | _ => none

/-- The bytes of one instruction of form `MovImmReg` (R49, R84). -/
def decodeImm : List Byte → Option (Instr × List Byte)
  | b0 :: bs =>
    match immWidth b0, bs with
    | .byte, b :: rest => some (.movR8Imm8 (immReg b0) b, rest)
    | .word, lo :: hi :: rest => some (.movR16Imm16 (immReg b0) (joinWord lo hi), rest)
    | _, _ => none
  | _ => none

/-- The instruction of form `MovMemAcc`: bit 0 of the opcode byte tells the table's rows A0 and A1 apart and selects nothing
(R52, R88, R89). -/
def memAccInstr (b0 : Byte) (a : Word) : Instr := if b0.getLsbD 0 then .movAxAddr a else .movAxAddrBit0Clear a

/-- The instruction of form `MovAccMem`: bit 0 of the opcode byte tells the table's rows A2 and A3 apart and selects nothing
(R52, R90, R91). -/
def accMemInstr (b0 : Byte) (a : Word) : Instr := if b0.getLsbD 0 then .movAddrAx a else .movAddrAxBit0Clear a

/-- The bytes of one instruction of an accumulator form: the opcode byte and two address bytes (R49, R87). -/
def decodeAcc (instr : Byte → Word → Instr) : List Byte → Option (Instr × List Byte)
  | b0 :: lo :: hi :: rest => some (instr b0 (joinWord lo hi), rest)
  | _ => none

/-- The decoder of a form (R57); `none` when the bytes end inside the instruction. -/
def decodeForm : Form → List Byte → Option (Instr × List Byte)
  | .movRmReg, bs => decodeRegMem bs
  | .movImmReg, bs => decodeImm bs
  | .movMemAcc, bs => decodeAcc memAccInstr bs
  | .movAccMem, bs => decodeAcc accMemInstr bs

/-- The decoder: classify the first byte, then run the decoder of its form on all the bytes (R3, R53, R57). -/
def decode : List Byte → Decoded
  | [] => .noBytes
  | b :: bs =>
    match classify b with
    | none => .unsupported b
    | some f =>
      match decodeForm f (b :: bs) with
      | some (i, rest) => .instr i rest
      | none => .truncated

/-! ### Form and length -/

/-- The form an instruction belongs to (the table's "format" column). -/
def Instr.form : Instr → Form
  | .movRm8R8 _ _ => .movRmReg
  | .movRm16R16 _ _ => .movRmReg
  | .movR8Rm8 _ _ => .movRmReg
  | .movR16Rm16 _ _ => .movRmReg
  | .movR8Imm8 _ _ => .movImmReg
  | .movR16Imm16 _ _ => .movImmReg
  | .movAxAddrBit0Clear _ => .movMemAcc
  | .movAxAddr _ => .movMemAcc
  | .movAddrAxBit0Clear _ => .movAccMem
  | .movAddrAx _ => .movAccMem

/-- How many displacement or address bytes follow the ModRM byte (R62, R69). -/
def RmForm.tailLength : RmForm → Nat
  | .reg _ => 0
  | .base _ => 0
  | .baseDisp8 _ _ => 1
  | .baseDisp16 _ _ => 2
  | .direct _ => 2

/-- The length `L` of an instruction, by the table of R69. -/
def Instr.length : Instr → Nat
  | .movRm8R8 _ rm => 2 + rm.tailLength
  | .movRm16R16 _ rm => 2 + rm.tailLength
  | .movR8Rm8 _ rm => 2 + rm.tailLength
  | .movR16Rm16 _ rm => 2 + rm.tailLength
  | .movR8Imm8 _ _ => 2
  | .movR16Imm16 _ _ => 3
  | .movAxAddrBit0Clear _ => 3
  | .movAxAddr _ => 3
  | .movAddrAxBit0Clear _ => 3
  | .movAddrAx _ => 3

/-- `InstrLen(b0, m)` of R70: the length from the opcode byte and, for `MovRmReg` only, the ModRM byte; `none` for an
opcode byte of no form. -/
def instrLen (b0 m : Byte) : Option Nat :=
  match classify b0 with
  | none => none
  | some .movImmReg => some (match immWidth b0 with | .byte => 2 | .word => 3)
  | some .movMemAcc => some 3
  | some .movAccMem => some 3
  | some .movRmReg =>
    if modField m = 0b11#2 then some 2
    else if modField m = 0b00#2 then some (if rmField m = 0b110#3 then 4 else 2)
    else if modField m = 0b01#2 then some 3
    else some 4

/-! ### The encoder (R49) -/

/-- A ModRM byte `mmgggsss` (R49, R58). -/
def modRM (mod : BitVec 2) (reg rm : RegIx) : Byte := mod ++ reg ++ rm

/-- The ModRM byte of an r/m operand and the bytes that follow it (R49, R62). -/
def encodeRm (reg : RegIx) : RmForm → List Byte
  | .reg rm => [modRM 0b11#2 reg rm]
  | .base rm => [modRM 0b00#2 reg rm]
  | .baseDisp8 rm d => [modRM 0b01#2 reg rm, d]
  | .baseDisp16 rm d => [modRM 0b10#2 reg rm, lowByte d, highByte d]
  | .direct a => [modRM 0b00#2 reg 0b110#3, lowByte a, highByte a]

/-- The opcode byte `10110rrr` or `10111rrr` of the immediate forms (R49, R85, R86). -/
def immOpcode (top : BitVec 5) (r : RegIx) : Byte := top ++ r

/-- The bytes of an instruction, first byte first (R49). -/
def encode : Instr → List Byte
  | .movRm8R8 reg rm => 0x88#8 :: encodeRm reg rm
  | .movRm16R16 reg rm => 0x89#8 :: encodeRm reg rm
  | .movR8Rm8 reg rm => 0x8A#8 :: encodeRm reg rm
  | .movR16Rm16 reg rm => 0x8B#8 :: encodeRm reg rm
  | .movR8Imm8 r imm => [immOpcode 0b10110#5 r, imm]
  | .movR16Imm16 r imm => [immOpcode 0b10111#5 r, lowByte imm, highByte imm]
  | .movAxAddrBit0Clear a => [0xA0#8, lowByte a, highByte a]
  | .movAxAddr a => [0xA1#8, lowByte a, highByte a]
  | .movAddrAxBit0Clear a => [0xA2#8, lowByte a, highByte a]
  | .movAddrAx a => [0xA3#8, lowByte a, highByte a]

/-! ### The opcode table's numbering of bits -/

/-- The four bytes (the longest instruction) of a table word: bit 0 of the word is the least significant bit of the first
byte, and bits at or above `nbits` are 0. -/
def tableWordBytes (nbits w : Nat) : List Byte :=
  let v := w % 2 ^ nbits
  [BitVec.ofNat 8 v, BitVec.ofNat 8 (v / 2 ^ 8), BitVec.ofNat 8 (v / 2 ^ 16), BitVec.ofNat 8 (v / 2 ^ 24)]

/-- The instruction the decoder reads from a table word; `none` where it refuses. -/
def decodeTableWord (nbits w : Nat) : Option Instr :=
  match decode (tableWordBytes nbits w) with
  | .instr i _ => some i
  | .unsupported _ => none
  | .truncated => none
  | .noBytes => none

end Sys2Proof
end

