-- ==== Sys2Proof/Machine/State.lean ====
section
/-! DEFINITION. The state of the block as plain data (10_state.md), its launch values (rule R32), and the reasons a step or
a launch can stop. -/

namespace Sys2Proof.Machine

/-- An operand of a decoded instruction (R25): a description, never evaluated (R6). `disp` and `v` are signed 16-bit
integers and `addr` an unsigned one; `Operand.inRange` (Safety.lean) says so and every emitted operand meets it. -/
inductive Operand where
  /-- `Reg(i, w)`: the register named `RegName(i, w)`. -/
  | reg (i : RegIx) (w : Width)
  /-- `Mem(base, disp)`: the base expression `BaseExpr(base)` and a displacement, 0 where the encoding has none. -/
  | mem (base : RegIx) (disp : Int)
  /-- `Direct(addr)`: a bare address. -/
  | direct (addr : Nat)
  /-- `Imm(v)`. -/
  | imm (v : Int)
  deriving DecidableEq, Repr

/-- The operation of a record: always `mov` (R26). -/
inductive Op where
  | mov
  deriving DecidableEq, Repr

/-- An instruction record `(op, dst, src)` (R26). -/
structure Record where
  op  : Op
  dst : Operand
  src : Operand
  deriving DecidableEq, Repr

/-- `err.cause` (R23, R92). -/
inductive Cause where
  | none
  | unsupportedOpcode
  | unexpectedEndOfStream
  deriving DecidableEq, Repr

/-- The error register `err` (R23). -/
structure ErrReg where
  cause : Cause
  /-- The offending byte when the cause is `UnsupportedOpcode`, otherwise 0 (R23). -/
  byte  : Byte
  deriving DecidableEq, Repr

/-- The state that exists only inside `Decoding(f)` (R24, R32): the read pointer, the latched bytes and the field bytes
extracted so far. -/
structure DecodeRegs where
  /-- The read pointer `p`. -/
  p      : Nat
  /-- The latched opcode byte, once it is consumed. -/
  opcode : Option Byte
  /-- The latched ModRM byte, once it is consumed. -/
  modrm  : Option Byte
  /-- The displacement, address or immediate bytes, once they are consumed. -/
  field  : List Byte
  deriving DecidableEq, Repr

/-- The driver state `st` (R21). The form and the decoder's registers have a value only in `Decoding(f)` (R22, R32). -/
inductive St where
  | scanning
  | dispatching
  | decoding (f : Form) (d : DecodeRegs)
  | done
  | error
  deriving DecidableEq, Repr

/-- The byte stream `B` (R33): a list of (offset, byte) cells, offsets strictly rising, none equal to what an unlisted
offset reads as (`Memory.wf`). -/
abbrev Memory := List Host.Cell

/-- The whole state of the block (R32). -/
structure State where
  /-- `B`: the stream, supplied by the host and never written by the block (R29). -/
  mem : Memory
  /-- `N`: the length of the stream; the offsets of `B` are 0 to `N - 1` (R29). -/
  n   : Nat
  /-- The decode cursor: the offset of the next undecoded byte (R18). -/
  cur : Nat
  /-- The driver state (R21). -/
  st  : St
  /-- The error register (R23). -/
  err : ErrReg
  /-- The output stream, oldest record first (R27). -/
  out : List Record
  deriving DecidableEq, Repr

/-- The launch values of R32, before the host has supplied a stream: nothing listed and `N = 0` (DESIGN CHOICE, log
entry 2). -/
def State.reset : State where
  mem := []
  n   := 0
  cur := 0
  st  := .scanning
  err := { cause := .none, byte := 0#8 }
  out := []

/-- Why a step stops. The block's two error kinds are no faults: taking one is a next state (R96). -/
inductive Fault where
  /-- Raised by `step` in `Done`: terminal, no step is enabled (R21, R106). Safe: the hardware takes no step either. -/
  | stuckInDone
  /-- Raised by `step` in `Error`: terminal, no step is enabled (R21, R98). Safe: the hardware takes no step either. -/
  | stuckInError
  /-- Raised by `step` in `Scanning` with `cur > N` and in `Dispatching` with `cur >= N`: no row of R21 and no
  precondition of `Peek` (R36) covers these, and no run reaches them (R20). Safe. -/
  | cursorPastEnd
  deriving DecidableEq, Repr

/-- Why the model has no meaning for something asked of it. -/
inductive Refusal where
  /-- Raised by `exec` for an instruction without a meaning, by its table mnemonic. No arm raises it. Safe. -/
  | notModelled (mnemonic : String)
  /-- Raised by `launch` while a run is in progress: the host has no move there (R108, R110). Safe. -/
  | launchDuringRun
  deriving DecidableEq, Repr

end Sys2Proof.Machine
end

