-- ==== Sys2Proof/Machine/Ops.lean ====
section
/-! DEFINITION. The shared operations: the byte stream, the cursor primitives of 20_memory.md, emitting a record, taking an
error (60_exceptions.md), completing an instruction, and the host's launch (70_reset_and_hazards.md). -/

namespace Sys2Proof.Machine

/-! ### The byte stream -/

/-- What an offset that no cell lists reads as (DESIGN CHOICE, log entry 1). -/
def Memory.unlisted : Byte := 0#8

/-- The byte of the stream at an offset. -/
def Memory.read : Memory → Nat → Byte
  | [], _ => Memory.unlisted
  | (k, b) :: m, a => if k = a then b else Memory.read m a

/-- The stream with one byte set, in canonical form. Only the host writes the stream, before a launch (R33, R109). -/
def Memory.write : Memory → Nat → Byte → Memory
  | [], a, b => if b = Memory.unlisted then [] else [(a, b)]
  | (k, c) :: m, a, b =>
    if a < k then (if b = Memory.unlisted then (k, c) :: m else (a, b) :: (k, c) :: m)
    else if a = k then (if b = Memory.unlisted then m else (a, b) :: m)
    else (k, c) :: Memory.write m a b

/-- The stream with the given bytes at consecutive offsets. -/
def Memory.writeBytes : Memory → Nat → List Byte → Memory
  | m, _, [] => m
  | m, a, b :: bs => Memory.writeBytes (Memory.write m a b) (a + 1) bs

/-- The `k` bytes of the stream from offset `p`, in increasing offset order (R39). -/
def Memory.bytes (m : Memory) (p : Nat) : Nat → List Byte
  | 0 => []
  | k + 1 => Memory.read m p :: Memory.bytes m (p + 1) k

/-- Every listed offset is at least `lo`, the offsets rise strictly, and no cell lists what an unlisted offset reads as. -/
def Memory.wfFrom : Nat → Memory → Bool
  | _, [] => true
  | lo, (k, b) :: m => decide (lo ≤ k) && decide (b ≠ Memory.unlisted) && Memory.wfFrom (k + 1) m

/-- The canonical form, in which equal streams are equal data. -/
def Memory.wf (m : Memory) : Bool := Memory.wfFrom 0 m

/-- `B[i]`, for the offsets `0` to `N - 1` that exist (R29, R33). -/
def State.byteAt (s : State) (i : Nat) : Option Byte := if i < s.n then some (s.mem.read i) else none

/-! ### The cursor primitives -/

/-- `Peek()`: the byte at the cursor; it changes nothing, and needs `cur < N` (R36). -/
def State.peek (s : State) : Option Byte := s.byteAt s.cur

/-- `IsEmpty()` is `cur == N` (R38). -/
def State.isEmpty (s : State) : Bool := decide (s.cur = s.n)

/-- The bytes from the cursor to the end of the stream, `N - cur` of them (R18). -/
def State.remaining (s : State) : List Byte := s.mem.bytes s.cur (s.n - s.cur)

/-- The decoder's registers when `Decoding(f)` begins: `p <- cur`, nothing latched (R37, R57). -/
def DecodeRegs.start (cur : Nat) : DecodeRegs := { p := cur, opcode := none, modrm := none, field := [] }

/-- `Consume(k)`: the `k` bytes at the read pointer, which moves past them; all or nothing, `none` where it raises
`UnexpectedEndOfStream` (R37). -/
def State.consume (s : State) (k : Nat) (d : DecodeRegs) : Option (List Byte × DecodeRegs) :=
  if d.p + k > s.n then none else some (s.mem.bytes d.p k, { d with p := d.p + k })

/-! ### Taking an error, emitting, completing -/

/-- Taking an error (R96): `st` and `err` are written; the cursor, the output stream and the stream stay. There is no
handler and no return from it (R98). -/
def State.raise (e : ErrReg) (s : State) : State := { s with st := .error, err := e }

/-- `UnsupportedOpcode(b)` as `err` records it (R92, R93). -/
def unsupportedOpcode (b : Byte) : ErrReg := { cause := .unsupportedOpcode, byte := b }

/-- `UnexpectedEndOfStream` as `err` records it (R92, R94). -/
def unexpectedEndOfStream : ErrReg := { cause := .unexpectedEndOfStream, byte := 0#8 }

/-- `emit(r)`: the record is appended at the end of the output stream (R27). -/
def State.emit (r : Record) (s : State) : State := { s with out := s.out ++ [r] }

/-- The end of a decoder that consumed its bytes up to `p`: `emit(r)`, `cur <- p`, back to `Scanning` (R19, R21, R28). -/
def State.complete (r : Record) (p : Nat) (s : State) : State := { s.emit r with cur := p, st := .scanning }

/-- `Decoding(f)` begins (R21, R37). -/
def State.enterDecoding (f : Form) (s : State) : State := { s with st := .decoding f (.start s.cur) }

/-! ### Running a decoder over an instruction's items -/

/-- The items an instruction's bytes consist of; each is read by one `Consume` (R40). -/
inductive Item where
  | opcode
  | modrm
  /-- An 8-bit displacement or immediate. -/
  | byteField
  /-- A 16-bit displacement, immediate or address. -/
  | wordField
  deriving DecidableEq, Repr

/-- How many bytes an item has (R40). -/
def Item.size : Item → Nat
  | .opcode => 1
  | .modrm => 1
  | .byteField => 1
  | .wordField => 2

/-- The decoder's registers with an item's bytes latched (R24). -/
def DecodeRegs.latch (d : DecodeRegs) : Item → List Byte → DecodeRegs
  | .opcode, bs => { d with opcode := bs.head? }
  | .modrm, bs => { d with modrm := bs.head? }
  | .byteField, bs => { d with field := bs }
  | .wordField, bs => { d with field := bs }

/-- One `Consume` of an item, its bytes latched. -/
def State.fetchItem (s : State) (it : Item) (d : DecodeRegs) : Option (List Byte × DecodeRegs) :=
  match s.consume it.size d with
  | none => none
  | some (bs, d') => some (bs, d'.latch it bs)

/-- The `Consume` calls of an instruction in byte order, up to the first that fails (R39, R94). -/
def State.fetchItems (s : State) : List Item → DecodeRegs → Option DecodeRegs
  | [], d => some d
  | it :: its, d =>
    match s.fetchItem it d with
    | none => none
    | some (_, d') => s.fetchItems its d'

/-- The `Decoding(f)` transition of an instruction with these items and this record (R21, R57): `p <- cur`, the `Consume`
calls, then either the record and the new cursor, or `UnexpectedEndOfStream` with no record. -/
def runDecoder (items : List Item) (r : Record) (s : State) : Host.Outcome State Fault Refusal :=
  match s.fetchItems items (.start s.cur) with
  | some d => .next (s.complete r d.p)
  | none => .next (s.raise unexpectedEndOfStream)

/-! ### The host's launch -/

/-- The state after a launch on the given stream: every piece of state at its launch value (R32, R107). -/
def launched (bytes : List Byte) : State :=
  { State.reset with mem := Memory.writeBytes [] 0 bytes, n := bytes.length }

/-- A launch is made from the reset state, or from `Done` or `Error`; the host has no move during a run (R108, R110). -/
def State.launchable (s : State) : Bool := decide (s.st = .done) || decide (s.st = .error) || decide (s = State.reset)

/-- The host's launch (R107, R108): the launch values, whatever the state was; refused while a run is in progress. -/
def launch (bytes : List Byte) (s : State) : Host.Outcome State Fault Refusal :=
  if s.launchable then .next (launched bytes) else .refused .launchDuringRun

end Sys2Proof.Machine
end

