-- ==== Sys2Proof/Machine/Operands.lean ====
section
/-! DEFINITION. Sign extension and byte order (rule R10), the register table (R15), the operand resolver (R60 to R65) and
the items of each form (R49). -/

namespace Sys2Proof.Machine

/-! ### Values of bytes (R10) -/

/-- `zext_16(v)`: a byte widened to 16 bits with zero upper bits (R10). -/
def zext16 (b : Byte) : Word := b.setWidth 16

/-- `sext_16(b)`: the byte as a two's-complement integer in -128..127 (R10). -/
def sext16 (b : Byte) : Int := if b.toNat < 0x80 then b.toNat else (b.toNat : Int) - 256

/-- `int16(u)`: a 16-bit value as a two's-complement integer in -32768..32767 (R10). -/
def int16 (u : Nat) : Int := if u < 0x8000 then u else (u : Int) - 65536

/-- `le16(lo, hi)`: the unsigned value of two bytes, low byte first (R10, R39). -/
def le16 (lo hi : Byte) : Nat := lo.toNat + 256 * hi.toNat

/-- The unsigned value of an encoded two-byte field (R39). -/
def wordValue (v : Word) : Nat := le16 (lowByte v) (highByte v)

/-! ### Register names (R15) and base expressions (R60) -/

/-- The 16 canonical register names: operand identities, not storage (R15, R16). -/
inductive RegName where
  | al | cl | dl | bl | ah | ch | dh | bh
  | ax | cx | dx | bx | sp | bp | si | di
  deriving DecidableEq, Repr

/-- `RegName(i, w)`, total on every index (R15). -/
def regName (i : RegIx) : Width → RegName
  | .byte =>
    if i = 0#3 then .al else if i = 1#3 then .cl else if i = 2#3 then .dl else if i = 3#3 then .bl
    else if i = 4#3 then .ah else if i = 5#3 then .ch else if i = 6#3 then .dh else .bh
  | .word =>
    if i = 0#3 then .ax else if i = 1#3 then .cx else if i = 2#3 then .dx else if i = 3#3 then .bx
    else if i = 4#3 then .sp else if i = 5#3 then .bp else if i = 6#3 then .si else .di

/-- The registers a base expression adds (R60). -/
def baseExpr (rm : RegIx) : List RegName :=
  if rm = 0#3 then [.bx, .si] else if rm = 1#3 then [.bx, .di] else if rm = 2#3 then [.bp, .si]
  else if rm = 3#3 then [.bp, .di] else if rm = 4#3 then [.si] else if rm = 5#3 then [.di]
  else if rm = 6#3 then [.bp] else [.bx]

/-! ### The operands of the forms -/

/-- The accumulator operand: always the word register `Reg(0, 1)` (R17). -/
def accumulator : Operand := .reg 0#3 .word

/-- The r/m operand of each encoding (R62, R63): a register at the instruction's width, a base with its signed
displacement, or an unsigned direct address (R67). -/
def rmOperand (w : Width) : RmForm → Operand
  | .reg rm => .reg rm w
  | .base rm => .mem rm 0
  | .baseDisp8 rm d => .mem rm (sext16 d)
  | .baseDisp16 rm d => .mem rm (int16 (wordValue d))
  | .direct a => .direct (wordValue a)

/-- The record of two operands, destination first (R26). -/
def movRecord (dst src : Operand) : Record := { op := .mov, dst := dst, src := src }

/-- The direction flag assigns the operands (R65). -/
def orient (d : Direction) (regOp rmOp : Operand) : Record :=
  match d with
  | .regIsDst => movRecord regOp rmOp
  | .regIsSrc => movRecord rmOp regOp

/-! ### The items of the forms (R49) -/

/-- What follows the ModRM byte (R62). -/
def rmItems : RmForm → List Item
  | .reg _ => []
  | .base _ => []
  | .baseDisp8 _ _ => [.byteField]
  | .baseDisp16 _ _ => [.wordField]
  | .direct _ => [.wordField]

/-- The items of a `MovRmReg` instruction (R49). -/
def regMemItems (rm : RmForm) : List Item := .opcode :: .modrm :: rmItems rm

/-- The items of a `MovImmReg` instruction (R49). -/
def immItems : Width → List Item
  | .byte => [.opcode, .byteField]
  | .word => [.opcode, .wordField]

/-- The items of an accumulator-form instruction (R49). -/
def accItems : List Item := [.opcode, .wordField]

end Sys2Proof.Machine
end

