-- ==== Sys2Proof/Machine/Acc.lean ====
section
/-! DEFINITION. The memory/accumulator MOVs, opcode bytes A0 to A3 (42_mov_acc.md). Bit 0 of the opcode byte selects
nothing: all four use `ax` (rule R52, log entry 10). -/

namespace Sys2Proof.Machine

/-- `ExecAcc(MovMemAcc)` of R87 on an address field. -/
def execMemAcc (addr16 : Word) (s : State) : Host.Outcome State Fault Refusal :=
  runDecoder accItems (movRecord accumulator (.direct (wordValue addr16))) s

/-- `ExecAcc(MovAccMem)` of R87 on an address field. -/
def execAccMem (addr16 : Word) (s : State) : Host.Outcome State Fault Refusal :=
  runDecoder accItems (movRecord (.direct (wordValue addr16)) accumulator) s

/-- `MOV ax, [addr16]`, opcode byte A0 (R88). -/
def execMovAxAddrBit0Clear (addr16 : Word) (s : State) : Host.Outcome State Fault Refusal := execMemAcc addr16 s

/-- `MOV ax, [addr16]`, opcode byte A1 (R89). -/
def execMovAxAddr (addr16 : Word) (s : State) : Host.Outcome State Fault Refusal := execMemAcc addr16 s

/-- `MOV [addr16], ax`, opcode byte A2 (R90). -/
def execMovAddrAxBit0Clear (addr16 : Word) (s : State) : Host.Outcome State Fault Refusal := execAccMem addr16 s

/-- `MOV [addr16], ax`, opcode byte A3 (R91). -/
def execMovAddrAx (addr16 : Word) (s : State) : Host.Outcome State Fault Refusal := execAccMem addr16 s

end Sys2Proof.Machine
end

