-- ==== Sys2Proof/Machine/Imm.lean ====
section
/-! DEFINITION. The immediate-to-register MOVs, opcode bytes B0 to BF (41_mov_imm.md). -/

namespace Sys2Proof.Machine

/-- `MOV r8, imm8` (R84 and R85, `w = 0`): the immediate is sign-extended to 16 bits. -/
def execMovR8Imm8 (r : RegIx) (imm8 : Byte) (s : State) : Host.Outcome State Fault Refusal :=
  runDecoder (immItems .byte) (movRecord (.reg r .byte) (.imm (sext16 imm8))) s

/-- `MOV r16, imm16` (R84 and R86, `w = 1`): the immediate is a signed 16-bit value, low byte first. -/
def execMovR16Imm16 (r : RegIx) (imm16 : Word) (s : State) : Host.Outcome State Fault Refusal :=
  runDecoder (immItems .word) (movRecord (.reg r .word) (.imm (int16 (wordValue imm16)))) s

end Sys2Proof.Machine
end

