-- ==== Sys2Proof/Machine/RegMem.lean ====
section
/-! DEFINITION. The register/memory MOVs, opcode bytes 88 to 8B (40_mov_regmem.md). -/

namespace Sys2Proof.Machine

/-- The record of a `MovRmReg` instruction: the `reg` operand and the r/m operand at the instruction's width, placed by the
direction flag (R61, R65, R79). -/
def regMemRecord (d : Direction) (w : Width) (reg : RegIx) (rm : RmForm) : Record := orient d (.reg reg w) (rmOperand w rm)

/-- `ExecRM()` of R79 on an instruction's fields. -/
def execRegMem (d : Direction) (w : Width) (reg : RegIx) (rm : RmForm) (s : State) : Host.Outcome State Fault Refusal :=
  runDecoder (regMemItems rm) (regMemRecord d w reg rm) s

/-- `MOV r/m8, r8` (R80): `d = 0`, `w = 0`. -/
def execMovRm8R8 (reg : RegIx) (rm : RmForm) (s : State) : Host.Outcome State Fault Refusal :=
  execRegMem .regIsSrc .byte reg rm s

/-- `MOV r/m16, r16` (R81): `d = 0`, `w = 1`. -/
def execMovRm16R16 (reg : RegIx) (rm : RmForm) (s : State) : Host.Outcome State Fault Refusal :=
  execRegMem .regIsSrc .word reg rm s

/-- `MOV r8, r/m8` (R82): `d = 1`, `w = 0`. -/
def execMovR8Rm8 (reg : RegIx) (rm : RmForm) (s : State) : Host.Outcome State Fault Refusal :=
  execRegMem .regIsDst .byte reg rm s

/-- `MOV r16, r/m16` (R83): `d = 1`, `w = 1`. -/
def execMovR16Rm16 (reg : RegIx) (rm : RmForm) (s : State) : Host.Outcome State Fault Refusal :=
  execRegMem .regIsDst .word reg rm s

end Sys2Proof.Machine
end

