-- ==== Sys2Proof/Machine/Dispatch.lean ====
section
/-! DEFINITION. The meaning of each instruction, one arm per constructor of Instr. -/

namespace Sys2Proof.Machine

def exec (i : Instr) (s : State) : Host.Outcome State Fault Refusal :=
  match i with
  | .movRm8R8 reg rm => Sys2Proof.Machine.execMovRm8R8 reg rm s
  | .movRm16R16 reg rm => Sys2Proof.Machine.execMovRm16R16 reg rm s
  | .movR8Rm8 reg rm => Sys2Proof.Machine.execMovR8Rm8 reg rm s
  | .movR16Rm16 reg rm => Sys2Proof.Machine.execMovR16Rm16 reg rm s
  | .movR8Imm8 r imm => Sys2Proof.Machine.execMovR8Imm8 r imm s
  | .movR16Imm16 r imm => Sys2Proof.Machine.execMovR16Imm16 r imm s
  | .movAxAddrBit0Clear a => Sys2Proof.Machine.execMovAxAddrBit0Clear a s
  | .movAxAddr a => Sys2Proof.Machine.execMovAxAddr a s
  | .movAddrAxBit0Clear a => Sys2Proof.Machine.execMovAddrAxBit0Clear a s
  | .movAddrAx a => Sys2Proof.Machine.execMovAddrAx a s

end Sys2Proof.Machine
end

