-- ==== Sys2Proof/Machine/Driver.lean ====
section
/-! DEFINITION. The driver's transitions from `Scanning` and `Dispatching`, fetching an instruction in `Decoding(f)` (rule
R21), and the decoders of R79, R84 and R87 as the spec's pseudocode writes them, byte by byte. -/

namespace Sys2Proof.Machine

/-- The transition from `Scanning` (R21): `Done` at the end of the stream, else `Dispatching`. A cursor past the end has no
row; the step stops (log entry 7). -/
def scan (s : State) : Host.Outcome State Fault Refusal :=
  if s.isEmpty then .next { s with st := .done }
  else if s.cur < s.n then .next { s with st := .dispatching }
  else .fault .cursorPastEnd

/-- The transition from `Dispatching` (R21, R93): classify the byte at the cursor, consume nothing. -/
def dispatchOpcode (s : State) : Host.Outcome State Fault Refusal :=
  match s.peek with
  | none => .fault .cursorPastEnd
  | some b =>
    match classify b with
    | some f => .next (s.enterDecoding f)
    | none => .next (s.raise (unsupportedOpcode b))

/-- The instruction that the decoder of a form reads at the cursor; `none` when the stream ends inside it. -/
def fetchInstr (f : Form) (s : State) : Option Instr := (decodeForm f s.remaining).map Prod.fst

/-- The state with an instruction's bytes placed where the next step decodes: at the cursor, inside the stream, in
`Decoding` of the form its first byte classifies to; a byte of no form is left to `Dispatching` (log entry 4). -/
def placeInstr (bytes : List Byte) (s : State) : State :=
  { s with
    mem := s.mem.writeBytes s.cur bytes
    n := max s.n (s.cur + bytes.length)
    st := match bytes.head?.bind classify with
      | some f => .decoding f (.start s.cur)
      | none => .dispatching }

/-! ### The spec's pseudocode

Each decoder answers its record and the registers it ends with, or `none` where a `Consume` raises
`UnexpectedEndOfStream`. `step` runs `exec` on the decoded instruction; that the two agree is a statement. -/

/-- `ResolveRM(mod, rm, w)` (R62), consuming the trailing bytes. -/
def pseudoResolveRM (s : State) (mod : BitVec 2) (rm : RegIx) (w : Width) (d : DecodeRegs) :
    Option (Operand × DecodeRegs) :=
  if mod = 0b11#2 then some (.reg rm w, d)
  else if mod = 0b00#2 then
    if rm = 0b110#3 then
      match s.fetchItem .wordField d with
      | some ([lo, hi], d) => some (.direct (le16 lo hi), d)
      | _ => none
    else some (.mem rm 0, d)
  else if mod = 0b01#2 then
    match s.fetchItem .byteField d with
    | some ([d8], d) => some (.mem rm (sext16 d8), d)
    | _ => none
  else
    match s.fetchItem .wordField d with
    | some ([lo, hi], d) => some (.mem rm (int16 (le16 lo hi)), d)
    | _ => none

/-- `ExecRM()` (R79). -/
def pseudoExecRM (s : State) : Option (Record × DecodeRegs) :=
  match s.fetchItem .opcode (.start s.cur) with
  | some ([b0], d) =>
    match s.fetchItem .modrm d with
    | some ([m], d) =>
      match pseudoResolveRM s (modField m) (rmField m) (rmWidth b0) d with
      | some (rmOp, d) => some (orient (rmDirection b0) (.reg (regField m) (rmWidth b0)) rmOp, d)
      | none => none
    | _ => none
  | _ => none

/-- `ExecImm()` (R84). -/
def pseudoExecImm (s : State) : Option (Record × DecodeRegs) :=
  match s.fetchItem .opcode (.start s.cur) with
  | some ([b0], d) =>
    match immWidth b0 with
    | .byte =>
      match s.fetchItem .byteField d with
      | some ([b], d) => some (movRecord (.reg (immReg b0) .byte) (.imm (sext16 b)), d)
      | _ => none
    | .word =>
      match s.fetchItem .wordField d with
      | some ([lo, hi], d) => some (movRecord (.reg (immReg b0) .word) (.imm (int16 (le16 lo hi))), d)
      | _ => none
  | _ => none

/-- `ExecAcc(f)` (R87); the record places the address as source or destination. -/
def pseudoExecAcc (s : State) (place : Operand → Record) : Option (Record × DecodeRegs) :=
  match s.fetchItem .opcode (.start s.cur) with
  | some ([_], d) =>
    match s.fetchItem .wordField d with
    | some ([lo, hi], d) => some (place (.direct (le16 lo hi)), d)
    | _ => none
  | _ => none

/-- The decoder of a form (R57). -/
def pseudoDecoder (f : Form) (s : State) : Option (Record × DecodeRegs) :=
  match f with
  | .movRmReg => pseudoExecRM s
  | .movImmReg => pseudoExecImm s
  | .movMemAcc => pseudoExecAcc s (fun a => movRecord accumulator a)
  | .movAccMem => pseudoExecAcc s (fun a => movRecord a accumulator)

end Sys2Proof.Machine
end

