-- ==== Sys2Proof/Machine/Step.lean ====
section
/-! DEFINITION. One step of the block: one transition of rule R21, none fused (log entry 5). -/

namespace Sys2Proof.Machine

/-- One transition of R21. In `Decoding(f)` the instruction at the cursor is executed, or `UnexpectedEndOfStream` is taken
when the stream ends inside it (R94). `Done` and `Error` are terminal (R98, R106). -/
def step (s : State) : Host.Outcome State Fault Refusal :=
  match s.st with
  | .scanning => scan s
  | .dispatching => dispatchOpcode s
  | .decoding f _ =>
    match fetchInstr f s with
    | some i => exec i s
    | none => .next (s.raise unexpectedEndOfStream)
  | .done => .fault .stuckInDone
  | .error => .fault .stuckInError

/-- The state with a table word's instruction placed where the next step decodes it (log entry 4). -/
def State.withFetchWord (s : State) (nbits w : Nat) : State := placeInstr (tableWordBytes nbits w) s

end Sys2Proof.Machine
end

