-- ==== Sys2Proof/Config.lean ====
section
/-! DEFINITION. What a realisation of the block fixes and the spec leaves open (rule R7, 92_eei_decisions.md D3). -/

namespace Sys2Proof

/-- `CURSOR_BITS`: the width of the cursor register in a realisation. The spec leaves it OPEN (R7, D3): it has no body,
so no proof can rest on a value of it. The stream length `N`, the other open parameter, is the field `State.n`. -/
opaque Config.cursorBits : Nat

/-- A stream of `n` bytes suits the realisation: `N <= 2^CURSOR_BITS - 1` (R7). -/
def Config.streamFits (n : Nat) : Prop := n ≤ 2 ^ Config.cursorBits - 1

end Sys2Proof
end

