-- ==== Sys2Proof/Machine/Flags.lean ====
section
/-! DEFINITION. The status and error registers as the host reads them (rules R22, R23) and the observation of a run (R30,
R112). The block has no arithmetic flags: every instruction's "Flags written" is none (R79 to R91). -/

namespace Sys2Proof.Machine

/-- The 3-bit code of `st` (R22). -/
def St.code : St → BitVec 3
  | .scanning => 0#3
  | .dispatching => 1#3
  | .decoding _ _ => 2#3
  | .done => 3#3
  | .error => 4#3

/-- The 2-bit code of a form (R22). -/
def formCode : Form → BitVec 2
  | .movImmReg => 0#2
  | .movRmReg => 1#2
  | .movMemAcc => 2#2
  | .movAccMem => 3#2

/-- The form field: defined only while `st = Decoding` (R22, R32). -/
def St.formField : St → Option (BitVec 2)
  | .decoding f _ => some (formCode f)
  | .scanning => none
  | .dispatching => none
  | .done => none
  | .error => none

/-- The 2-bit code of `err.cause` (R23). -/
def Cause.code : Cause → BitVec 2
  | .none => 0#2
  | .unsupportedOpcode => 1#2
  | .unexpectedEndOfStream => 2#2

/-- What the host can read (R30, R112). -/
structure Observation where
  out     : List Record
  st      : BitVec 3
  cause   : BitVec 2
  errByte : Byte
  cur     : Nat
  deriving DecidableEq, Repr

/-- The observation `(out, st, err, cur)` (R112). -/
def State.observe (s : State) : Observation :=
  { out := s.out, st := s.st.code, cause := s.err.cause.code, errByte := s.err.byte, cur := s.cur }

/-- The cursor as a realisation's register of `CURSOR_BITS` bits holds it (R7, R18). -/
def State.cursorRegister (s : State) : BitVec Config.cursorBits := BitVec.ofNat Config.cursorBits s.cur

end Sys2Proof.Machine
end

