-- ==== Sys2Proof/Machine/Render.lean ====
section
/-! DEFINITION. The reference function `Render` from a record to its text (rules R71 to R77). It is neither state nor output
of the block (R71). A text is a list of characters, without a line terminator. -/

namespace Sys2Proof.Machine

/-- One line of text, or a part of it. -/
abbrev Text := List Char

/-- The spelling of a register name, lower case (R15, R71). -/
def RegName.text : RegName → Text
  | .al => ['a', 'l'] | .cl => ['c', 'l'] | .dl => ['d', 'l'] | .bl => ['b', 'l']
  | .ah => ['a', 'h'] | .ch => ['c', 'h'] | .dh => ['d', 'h'] | .bh => ['b', 'h']
  | .ax => ['a', 'x'] | .cx => ['c', 'x'] | .dx => ['d', 'x'] | .bx => ['b', 'x']
  | .sp => ['s', 'p'] | .bp => ['b', 'p'] | .si => ['s', 'i'] | .di => ['d', 'i']

/-- Register names joined by `+`, no spaces inside (R60). -/
def joinPlus : List RegName → Text
  | [] => []
  | [r] => r.text
  | r :: rs => r.text ++ '+' :: joinPlus rs

/-- `BaseExpr(rm)` as text (R60). -/
def baseText (rm : RegIx) : Text := joinPlus (baseExpr rm)

/-- The decimal digit of a number below 10. -/
def digitChar (k : Nat) : Char := Char.ofNat (48 + k % 10)

/-- The decimal digits of a number, the fuel bounding how many are written. -/
def decDigits : Nat → Nat → Text
  | 0, _ => []
  | fuel + 1, a => if a < 10 then [digitChar a] else decDigits fuel (a / 10) ++ [digitChar a]

/-- `dec_u(a)`: the shortest decimal spelling of an unsigned number (R76). -/
def decU (a : Nat) : Text := decDigits (a + 1) a

/-- `dec_s(v)`: a minus sign before a negative number's digits, no plus sign (R76). -/
def decS (v : Int) : Text :=
  match v with
  | .ofNat a => decU a
  | .negSucc k => '-' :: decU (k + 1)

/-- `RenderOp` (R72 to R75): a zero displacement is suppressed, a negative one keeps its sign after the plus (R73). -/
def renderOp : Operand → Text
  | .reg i w => (regName i w).text
  | .mem b d => if d = 0 then '[' :: baseText b ++ [']'] else '[' :: baseText b ++ [' ', '+', ' '] ++ decS d ++ [']']
  | .direct a => '[' :: decU a ++ [']']
  | .imm v => decS v

/-- The mnemonic (R78). -/
def Op.text : Op → Text
  | .mov => ['m', 'o', 'v']

/-- `Render` (R71). -/
def render (r : Record) : Text := r.op.text ++ ' ' :: renderOp r.dst ++ [',', ' '] ++ renderOp r.src

end Sys2Proof.Machine
end

