-- ==== Sys2Proof/Safety.lean ====
section
/-! DEFINITION. The terms claims are stated in: the record the spec gives an instruction, the ranges of operands, and the
invariant of the block. The model's step uses none of these. -/

namespace Sys2Proof.Machine

/-! ### The record of an instruction, written without the model's own arithmetic

Two's-complement and unsigned values are Lean's `BitVec.toInt` and `BitVec.toNat`, where the machine assembles bytes by
R10's formulas. -/

/-- The r/m operand of each encoding (R62). -/
def specRmOperand (w : Width) : RmForm → Operand
  | .reg rm => .reg rm w
  | .base rm => .mem rm 0
  | .baseDisp8 rm d => .mem rm d.toInt
  | .baseDisp16 rm d => .mem rm d.toInt
  | .direct a => .direct a.toNat

/-- The record of each instruction (R80 to R83, R85, R86, R88 to R91). -/
def specRecord : Instr → Record
  | .movRm8R8 reg rm => { op := .mov, dst := specRmOperand .byte rm, src := .reg reg .byte }
  | .movRm16R16 reg rm => { op := .mov, dst := specRmOperand .word rm, src := .reg reg .word }
  | .movR8Rm8 reg rm => { op := .mov, dst := .reg reg .byte, src := specRmOperand .byte rm }
  | .movR16Rm16 reg rm => { op := .mov, dst := .reg reg .word, src := specRmOperand .word rm }
  | .movR8Imm8 r imm => { op := .mov, dst := .reg r .byte, src := .imm imm.toInt }
  | .movR16Imm16 r imm => { op := .mov, dst := .reg r .word, src := .imm imm.toInt }
  | .movAxAddrBit0Clear a => { op := .mov, dst := .reg 0#3 .word, src := .direct a.toNat }
  | .movAxAddr a => { op := .mov, dst := .reg 0#3 .word, src := .direct a.toNat }
  | .movAddrAxBit0Clear a => { op := .mov, dst := .direct a.toNat, src := .reg 0#3 .word }
  | .movAddrAx a => { op := .mov, dst := .direct a.toNat, src := .reg 0#3 .word }

/-! ### The states that the two ends of a decode leave -/

/-- The state after an instruction of length `L` completed with record `r` (R21): nothing else differs. -/
def State.afterRecord (s : State) (L : Nat) (r : Record) : State :=
  { s with st := .scanning, cur := s.cur + L, out := s.out ++ [r] }

/-- The state after an error was taken (R96): nothing else differs. -/
def State.afterError (s : State) (cause : Cause) (byte : Byte) : State :=
  { s with st := .error, err := { cause := cause, byte := byte } }

/-- The outcome is the `UnexpectedEndOfStream` error of `s`, with no record of the failing instruction (R28, R92). -/
def TakesEndOfStream (s : State) (o : Host.Outcome State Fault Refusal) : Prop :=
  ∃ t, o = .next t ∧ t.st = .error ∧ t.err.cause = .unexpectedEndOfStream ∧ t.out = s.out

/-! ### Ranges and widths (R25, R26) -/

/-- The ranges of an operand's integers (R25). -/
def Operand.InRange : Operand → Prop
  | .reg _ _ => True
  | .mem _ d => -32768 ≤ d ∧ d ≤ 32767
  | .direct a => a ≤ 65535
  | .imm v => -32768 ≤ v ∧ v ≤ 32767

/-- An operand that names a register. -/
def Operand.isReg : Operand → Bool
  | .reg _ _ => true
  | .mem _ _ => false
  | .direct _ => false
  | .imm _ => false

/-- The width an operand selects: only a register name carries one (R26, R77). -/
def Operand.width? : Operand → Option Width
  | .reg _ w => some w
  | .mem _ _ => none
  | .direct _ => none
  | .imm _ => none

/-! ### Runs -/

/-- A run has ended (R112). -/
def State.Ended (s : State) : Prop := s.st = .done ∨ s.st = .error

/-- `k` steps of the block, stopping at the first fault or refusal: the host's run of the host's core. -/
def run (k : Nat) (s : State) : Host.Outcome State Fault Refusal := Host.Core.run core k s

/-- `s` is reached from a launch on `bytes` by `k` transitions. -/
def Reaches (bytes : List Byte) (k : Nat) (s : State) : Prop := run k (launched bytes) = .next s

/-! ### The invariant -/

/-- The stream is in canonical form and lists no offset outside `0` to `N - 1` (R29, R33). -/
def State.StreamInv (s : State) : Prop := s.mem.wf = true ∧ ∀ c ∈ s.mem, c.1 < s.n

/-- What the driver state says about the cursor, the form and the decoder's registers (R18, R21, R37). -/
def State.StatusInv (s : State) : Prop :=
  s.cur ≤ s.n ∧
  match s.st with
  | .scanning => True
  | .dispatching => s.cur < s.n
  | .decoding f d => d = .start s.cur ∧ ∃ b, s.byteAt s.cur = some b ∧ classify b = some f
  | .done => s.cur = s.n
  | .error => s.cur < s.n

/-- What the error register says (R23, R92): a cause exactly in `Error`; the offending byte is the one at the cursor; a
truncated instruction stands at the cursor otherwise. -/
def State.ErrInv (s : State) : Prop :=
  (s.err.cause ≠ .none ↔ s.st = .error) ∧
  (s.err.cause ≠ .unsupportedOpcode → s.err.byte = 0#8) ∧
  (s.err.cause = .unsupportedOpcode → decode s.remaining = .unsupported s.err.byte) ∧
  (s.err.cause = .unexpectedEndOfStream → decode s.remaining = .truncated)

/-- The output stream is the records, in order, of instructions whose encodings are exactly the bytes before the cursor
(R19, R27, R97). -/
def State.OutInv (s : State) : Prop :=
  ∃ is : List Instr, (∀ i ∈ is, i.wf = true) ∧ s.mem.bytes 0 s.cur = is.flatMap encode ∧ s.out = is.map specRecord

/-- The invariant of the block. -/
structure State.Inv (s : State) : Prop where
  stream : s.StreamInv
  status : s.StatusInv
  err    : s.ErrInv
  out    : s.OutInv

end Sys2Proof.Machine
end

