-- ==== Sys2Proof/Certificates/Slice0/Obligations.lean ====
section
/-! DEFINITION. The statements about the block, one `def Obligations.<Name> : Prop` each; OBLIGATIONS.json lists them.
A docstring that says "spec's decision" or "spec's inference" names a clause the spec marks as its own. -/

open Sys2Proof Sys2Proof.Machine

/-! ### Classifying and decoding -/

/-- R53: the four prefix tests, on the byte's value, and that `Dispatching` classifies the byte at the cursor and consumes
nothing. -/
def Obligations.ClassifierMatchesPrefixes : Prop :=
  (∀ b : Byte,
    (b.toNat / 16 = 0b1011 → classify b = some .movImmReg) ∧
    (b.toNat / 4 = 0b100010 → classify b = some .movRmReg) ∧
    (b.toNat / 2 = 0b1010000 → classify b = some .movMemAcc) ∧
    (b.toNat / 2 = 0b1010001 → classify b = some .movAccMem) ∧
    (b.toNat / 16 ≠ 0b1011 → b.toNat / 4 ≠ 0b100010 → b.toNat / 2 ≠ 0b1010000 → b.toNat / 2 ≠ 0b1010001 →
      classify b = none)) ∧
  ∀ (s : State) (b : Byte) (f : Form), s.st = .dispatching → s.byteAt s.cur = some b → classify b = some f →
    ∃ d, step s = .next { s with st := .decoding f d }

/-- R55, R93: exactly the 232 listed byte values are of no form, and each, at any instruction start and whatever follows,
takes `UnsupportedOpcode` with that byte, the cursor left on it. -/
def Obligations.UnrecognisedBytesRaise : Prop :=
  (∀ b : Byte, classify b = none ↔
    b.toNat ≤ 0x87 ∨ (0x8C ≤ b.toNat ∧ b.toNat ≤ 0x9F) ∨ (0xA4 ≤ b.toNat ∧ b.toNat ≤ 0xAF) ∨ 0xC0 ≤ b.toNat) ∧
  (List.range 256).countP (fun k => classify (BitVec.ofNat 8 k) == none) = 232 ∧
  ∀ (s : State) (b : Byte), s.st = .dispatching → s.byteAt s.cur = some b → classify b = none →
    ∃ t, step s = .next t ∧ t.st = .error ∧ t.err.cause = .unsupportedOpcode ∧ t.err.byte = b ∧ t.cur = s.cur ∧
      t.out = s.out

/-- No byte matches two of the four patterns, so the order of the tests is immaterial; they match 16, 4, 2 and 2 bytes
(the spec's inference in R54). -/
def Obligations.ClassifierPatternsDisjoint : Prop :=
  (∀ b : Byte, [decide (b.toNat / 16 = 0b1011), decide (b.toNat / 4 = 0b100010), decide (b.toNat / 2 = 0b1010000),
    decide (b.toNat / 2 = 0b1010001)].count true ≤ 1) ∧
  [Form.movImmReg, .movRmReg, .movMemAcc, .movAccMem].map
    (fun f => (List.range 256).countP (fun k => classify (BitVec.ofNat 8 k) == some f)) = [16, 4, 2, 2]

/-- Decoding the encoding of a well-formed instruction, whatever bytes follow, gives it back and leaves those bytes. -/
def Obligations.DecodeOfEncode : Prop :=
  ∀ (i : Instr) (rest : List Byte), i.wf = true → decode (encode i ++ rest) = .instr i rest

/-- What the decoder answers is well formed, and the bytes it read are exactly the encoding: no byte has two readings. -/
def Obligations.DecodedBytesAreTheEncoding : Prop :=
  ∀ (bs rest : List Byte) (i : Instr), decode bs = .instr i rest → i.wf = true ∧ bs = encode i ++ rest

/-- The bytes of the spec's worked examples, one per row of the opcode table (40_mov_regmem.md, 41_mov_imm.md,
42_mov_acc.md), decode to the instructions they stand for. -/
def Obligations.ExampleBytesDecode : Prop :=
  decode [0x88#8, 0x47#8, 0x05#8] = .instr (.movRm8R8 0#3 (.baseDisp8 7#3 5#8)) [] ∧
  decode [0x89#8, 0xD8#8] = .instr (.movRm16R16 3#3 (.reg 0#3)) [] ∧
  decode [0x8A#8, 0x00#8] = .instr (.movR8Rm8 0#3 (.base 0#3)) [] ∧
  decode [0x8B#8, 0x1E#8, 0x34#8, 0x12#8] = .instr (.movR16Rm16 3#3 (.direct 0x1234#16)) [] ∧
  decode [0xB0#8, 0xFF#8] = .instr (.movR8Imm8 0#3 0xFF#8) [] ∧
  decode [0xB8#8, 0x00#8, 0x01#8] = .instr (.movR16Imm16 0#3 0x0100#16) [] ∧
  decode [0xA0#8, 0x34#8, 0x12#8] = .instr (.movAxAddrBit0Clear 0x1234#16) [] ∧
  decode [0xA1#8, 0x34#8, 0x12#8] = .instr (.movAxAddr 0x1234#16) [] ∧
  decode [0xA2#8, 0xFF#8, 0xFF#8] = .instr (.movAddrAxBit0Clear 0xFFFF#16) [] ∧
  decode [0xA3#8, 0x34#8, 0x12#8] = .instr (.movAddrAx 0x1234#16) []

/-- R59: every ModRM byte after a register/memory opcode byte decodes, when the bytes it may need are there. -/
def Obligations.EveryModRMByteIsValid : Prop :=
  ∀ (b0 m x y : Byte) (rest : List Byte), classify b0 = some .movRmReg →
    ∃ i rest', decode (b0 :: m :: x :: y :: rest) = .instr i rest' ∧ i.form = .movRmReg

/-- The length the decoder uses is R70's function of the first two bytes, R69's 2, 3 or 4 (the spec's inference). -/
def Obligations.LengthFromFirstTwoBytes : Prop :=
  ∀ (bs rest : List Byte) (i : Instr), decode bs = .instr i rest →
    ∃ b0 m tl, bs = b0 :: m :: tl ∧ instrLen b0 m = some i.length ∧ bs.length = i.length + rest.length ∧
      (i.length = 2 ∨ i.length = 3 ∨ i.length = 4)

/-- `rm = 110` under each `mod`: the register 110 under `mod = 11`, the base `bp` under `mod = 01` and `mod = 10`, and a
direct address only under `mod = 00` (the spec's inference in R63; the fields' places are its inference in R50 and R58, log
entry 15); `bp` is what base 110 spells. -/
def Obligations.Rm110IsBpUnlessModZero : Prop :=
  ∀ (b0 : Byte) (reg : RegIx) (x y : Byte) (rest : List Byte), classify b0 = some .movRmReg →
    decode (b0 :: modRM 0b11#2 reg 0b110#3 :: x :: y :: rest) =
      .instr (regMemInstr (rmDirection b0) (rmWidth b0) reg (.reg 0b110#3)) (x :: y :: rest) ∧
    decode (b0 :: modRM 0b01#2 reg 0b110#3 :: x :: y :: rest) =
      .instr (regMemInstr (rmDirection b0) (rmWidth b0) reg (.baseDisp8 0b110#3 x)) (y :: rest) ∧
    decode (b0 :: modRM 0b10#2 reg 0b110#3 :: x :: y :: rest) =
      .instr (regMemInstr (rmDirection b0) (rmWidth b0) reg (.baseDisp16 0b110#3 (joinWord x y))) rest ∧
    decode (b0 :: modRM 0b00#2 reg 0b110#3 :: x :: y :: rest) =
      .instr (regMemInstr (rmDirection b0) (rmWidth b0) reg (.direct (joinWord x y))) rest ∧
    baseText 0b110#3 = ['b', 'p']

/-- Setting the direction bit of a register/memory instruction's opcode byte swaps destination and source in the record and
changes nothing else (quoted in R65; the polarity is the spec's inference there). -/
def Obligations.DirectionBitSwapsOperands : Prop :=
  ∀ (b : Byte) (tl rest : List Byte) (i : Instr), b = 0x88#8 ∨ b = 0x89#8 → decode (b :: tl) = .instr i rest →
    ∃ j, decode ((b ||| 0b10#8) :: tl) = .instr j rest ∧
      ∀ s : State, s.cur + i.length ≤ s.n → ∃ x y,
        exec i s = .next (s.afterRecord i.length { op := .mov, dst := x, src := y }) ∧
        exec j s = .next (s.afterRecord i.length { op := .mov, dst := y, src := x })

/-! ### The driver -/

/-- R21: the eight rows of the transition table. The decoder of a form is `decodeForm`, which answers `none` exactly where
a `Consume` fails; the record is `specRecord`'s. The byte beside `UnexpectedEndOfStream` is left to ErrorEntry. -/
def Obligations.DriverTransitions : Prop :=
  ∀ s : State,
    (s.st = .scanning → s.cur = s.n → step s = .next { s with st := .done }) ∧
    (s.st = .scanning → s.cur < s.n → step s = .next { s with st := .dispatching }) ∧
    (∀ b f, s.st = .dispatching → s.byteAt s.cur = some b → classify b = some f →
      ∃ d, step s = .next { s with st := .decoding f d }) ∧
    (∀ b, s.st = .dispatching → s.byteAt s.cur = some b → classify b = none →
      step s = .next (s.afterError .unsupportedOpcode b)) ∧
    (∀ f d i rest, s.st = .decoding f d → decodeForm f s.remaining = some (i, rest) →
      step s = .next (s.afterRecord i.length (specRecord i))) ∧
    (∀ f d, s.st = .decoding f d → decodeForm f s.remaining = none →
      ∃ b, step s = .next (s.afterError .unexpectedEndOfStream b)) ∧
    (s.st = .done → ∀ t, step s ≠ .next t) ∧
    (s.st = .error → ∀ t, step s ≠ .next t)

/-- When the bytes at the cursor decode to an instruction, the `Decoding` step of its form is `exec` of it; from `Scanning`
the two steps before it are those to `Dispatching` and to `Decoding`, which write nothing but `st`. -/
def Obligations.StepRunsDecodedInstruction : Prop :=
  ∀ (s : State) (i : Instr) (rest : List Byte), decode s.remaining = .instr i rest →
    (∀ d, s.st = .decoding i.form d → step s = exec i s) ∧
    (s.st = .scanning → step s = .next { s with st := .dispatching } ∧
      step { s with st := .dispatching } = .next (s.enterDecoding i.form) ∧
      step (s.enterDecoding i.form) = exec i (s.enterDecoding i.form))

/-- The checks come in R99's order (the spec's inference): the end of the stream first, which is `Done`; then the opcode
byte, even where it is the last byte; then the instruction's bytes. -/
def Obligations.ErrorPriority : Prop :=
  ∀ s : State, s.st = .scanning →
    (s.cur = s.n → run 1 s = .next { s with st := .done }) ∧
    (∀ b, s.byteAt s.cur = some b → classify b = none →
      run 2 s = .next (s.afterError .unsupportedOpcode b)) ∧
    (decode s.remaining = .truncated →
      run 3 s = .next (s.afterError .unexpectedEndOfStream 0#8))

/-- The `Decoding(f)` step is the spec's pseudocode of the form's decoder (R57, R79, R84, R87), run byte by byte with
`Consume`. The error byte 0 and the cursor that stays on a failure are the spec's decisions D6 and D7 (log entry 16). -/
def Obligations.DecodingRunsThePseudocode : Prop :=
  ∀ (s : State) (f : Form) (d : DecodeRegs), s.st = .decoding f d →
    step s = match pseudoDecoder f s with
      | some (r, regs) => .next { s with st := .scanning, cur := regs.p, out := s.out ++ [r] }
      | none => .next (s.afterError .unexpectedEndOfStream 0#8)

/-- `UnexpectedEndOfStream` is taken exactly in the cases of R94's closed form (the spec's inference; the cursor staying at
the instruction's start is its decision D7). -/
def Obligations.EndOfStreamExactlyWhenTruncated : Prop :=
  ∀ (s : State) (f : Form) (d : DecodeRegs) (b : Byte), s.st = .decoding f d → s.byteAt s.cur = some b →
    classify b = some f →
    (step s = .next (s.afterError .unexpectedEndOfStream 0#8) ↔
      (f = .movImmReg ∧ s.n - s.cur < 2 + b.toNat / 8 % 2) ∨
      ((f = .movMemAcc ∨ f = .movAccMem) ∧ s.n - s.cur < 3) ∨
      (f = .movRmReg ∧ (s.n - s.cur = 1 ∨
        ∃ m L, s.byteAt (s.cur + 1) = some m ∧ instrLen b m = some L ∧ s.n - s.cur < L)))

/-! ### What each form decodes, from its bytes -/

/-- The `reg` operand and the r/m operand for every `mod`, with the further bytes each reads (R61, R62), at the width and in
the direction of the opcode byte's low bits (R79). The places of `d`, `w` and `rm` and the polarity of `d` are the spec's
inferences (R50, R58, R65; log entry 15), and the unsigned address its decision D8 (log entry 13). -/
def Obligations.ModRMSelectsOperands : Prop :=
  ∀ (s : State) (d : DecodeRegs) (b0 m : Byte) (w : Width) (reg rm : RegIx) (rec : Operand → Record),
    s.st = .decoding .movRmReg d → s.byteAt s.cur = some b0 → s.byteAt (s.cur + 1) = some m →
    w = (if b0.toNat % 2 = 1 then .word else .byte) → reg.toNat = m.toNat / 8 % 8 → rm.toNat = m.toNat % 8 →
    rec = (fun x => if b0.toNat / 2 % 2 = 1 then { op := .mov, dst := .reg reg w, src := x }
      else { op := .mov, dst := x, src := .reg reg w }) →
    (m.toNat / 64 = 0b11 → step s = .next (s.afterRecord 2 (rec (.reg rm w)))) ∧
    (m.toNat / 64 = 0b00 → rm ≠ 0b110#3 → step s = .next (s.afterRecord 2 (rec (.mem rm 0)))) ∧
    (m.toNat / 64 = 0b00 → rm = 0b110#3 → ∀ lo hi, s.byteAt (s.cur + 2) = some lo → s.byteAt (s.cur + 3) = some hi →
      step s = .next (s.afterRecord 4 (rec (.direct (lo.toNat + 256 * hi.toNat))))) ∧
    (m.toNat / 64 = 0b01 → ∀ d8, s.byteAt (s.cur + 2) = some d8 →
      step s = .next (s.afterRecord 3 (rec (.mem rm d8.toInt)))) ∧
    (m.toNat / 64 = 0b10 → ∀ lo hi, s.byteAt (s.cur + 2) = some lo → s.byteAt (s.cur + 3) = some hi →
      step s = .next (s.afterRecord 4 (rec (.mem rm (hi ++ lo).toInt))))

/-- R66, R84: the immediate form from its bytes, the byte immediate sign-extended, the word immediate low byte first, and
the truncation of each; the opcode byte is `1011wrrr`. -/
def Obligations.ImmediateBytesDecode : Prop :=
  (∀ b0 : Byte, classify b0 = some .movImmReg ↔ b0.toNat / 16 = 0b1011) ∧
  ∀ (s : State) (d : DecodeRegs) (b0 : Byte) (r : RegIx),
    s.st = .decoding .movImmReg d → s.byteAt s.cur = some b0 → r.toNat = b0.toNat % 8 →
    (b0.toNat / 8 % 2 = 0 → ∀ b, s.byteAt (s.cur + 1) = some b →
      step s = .next (s.afterRecord 2 { op := .mov, dst := .reg r .byte, src := .imm b.toInt })) ∧
    (b0.toNat / 8 % 2 = 1 → ∀ lo hi, s.byteAt (s.cur + 1) = some lo → s.byteAt (s.cur + 2) = some hi →
      step s = .next (s.afterRecord 3 { op := .mov, dst := .reg r .word, src := .imm (hi ++ lo).toInt })) ∧
    (s.n - s.cur < 2 + b0.toNat / 8 % 2 → TakesEndOfStream s (step s))

/-- R87: the accumulator forms from their bytes: the opcode byte is `101000tx`, `t` picking the form; `ax` and an unsigned
address, low byte first, the form alone placing them, whatever the opcode byte's bit 0. -/
def Obligations.AccumulatorBytesDecode : Prop :=
  (∀ b0 : Byte, (classify b0 = some .movMemAcc ↔ b0.toNat / 4 = 0b101000 ∧ b0.toNat / 2 % 2 = 0) ∧
    (classify b0 = some .movAccMem ↔ b0.toNat / 4 = 0b101000 ∧ b0.toNat / 2 % 2 = 1)) ∧
  ∀ (s : State) (d : DecodeRegs),
    (∀ b0 lo hi, s.byteAt s.cur = some b0 → s.byteAt (s.cur + 1) = some lo → s.byteAt (s.cur + 2) = some hi →
      (s.st = .decoding .movMemAcc d → step s = .next (s.afterRecord 3
        { op := .mov, dst := .reg 0#3 .word, src := .direct (lo.toNat + 256 * hi.toNat) })) ∧
      (s.st = .decoding .movAccMem d → step s = .next (s.afterRecord 3
        { op := .mov, dst := .direct (lo.toNat + 256 * hi.toNat), src := .reg 0#3 .word }))) ∧
    (s.st = .decoding .movMemAcc d ∨ s.st = .decoding .movAccMem d → s.n - s.cur < 3 → TakesEndOfStream s (step s))

/-! ### What each instruction does -/

/-- R80, R81: the two opcodes that store a register to the r/m operand complete with that record, for every form of the
operand, when their bytes are there; otherwise they take `UnexpectedEndOfStream`. -/
def Obligations.RegisterToRmCompletes : Prop :=
  ∀ (s : State) (reg : RegIx) (rm : RmForm),
    (encode (.movRm8R8 reg rm)).head? = some 0x88#8 ∧ (encode (.movRm16R16 reg rm)).head? = some 0x89#8 ∧
    (s.cur + (2 + rm.tailLength) ≤ s.n →
      exec (.movRm8R8 reg rm) s = .next (s.afterRecord (2 + rm.tailLength)
        { op := .mov, dst := specRmOperand .byte rm, src := .reg reg .byte }) ∧
      exec (.movRm16R16 reg rm) s = .next (s.afterRecord (2 + rm.tailLength)
        { op := .mov, dst := specRmOperand .word rm, src := .reg reg .word })) ∧
    (s.n < s.cur + (2 + rm.tailLength) →
      TakesEndOfStream s (exec (.movRm8R8 reg rm) s) ∧ TakesEndOfStream s (exec (.movRm16R16 reg rm) s))

/-- R82, R83: the two opcodes that load a register from the r/m operand. -/
def Obligations.RmToRegisterCompletes : Prop :=
  ∀ (s : State) (reg : RegIx) (rm : RmForm),
    (encode (.movR8Rm8 reg rm)).head? = some 0x8A#8 ∧ (encode (.movR16Rm16 reg rm)).head? = some 0x8B#8 ∧
    (s.cur + (2 + rm.tailLength) ≤ s.n →
      exec (.movR8Rm8 reg rm) s = .next (s.afterRecord (2 + rm.tailLength)
        { op := .mov, dst := .reg reg .byte, src := specRmOperand .byte rm }) ∧
      exec (.movR16Rm16 reg rm) s = .next (s.afterRecord (2 + rm.tailLength)
        { op := .mov, dst := .reg reg .word, src := specRmOperand .word rm })) ∧
    (s.n < s.cur + (2 + rm.tailLength) →
      TakesEndOfStream s (exec (.movR8Rm8 reg rm) s) ∧ TakesEndOfStream s (exec (.movR16Rm16 reg rm) s))

/-- R85, R86: the immediate opcodes. -/
def Obligations.ImmediateCompletes : Prop :=
  ∀ (s : State) (r : RegIx) (imm8 : Byte) (imm16 : Word),
    encode (.movR8Imm8 r imm8) = [0b10110#5 ++ r, imm8] ∧
    (∃ lo hi, encode (.movR16Imm16 r imm16) = [0b10111#5 ++ r, lo, hi] ∧ hi ++ lo = imm16) ∧
    (s.cur + 2 ≤ s.n → exec (.movR8Imm8 r imm8) s =
      .next (s.afterRecord 2 { op := .mov, dst := .reg r .byte, src := .imm imm8.toInt })) ∧
    (s.cur + 3 ≤ s.n → exec (.movR16Imm16 r imm16) s =
      .next (s.afterRecord 3 { op := .mov, dst := .reg r .word, src := .imm imm16.toInt })) ∧
    (s.n < s.cur + 2 → TakesEndOfStream s (exec (.movR8Imm8 r imm8) s)) ∧
    (s.n < s.cur + 3 → TakesEndOfStream s (exec (.movR16Imm16 r imm16) s))

/-- R88 to R91: the four accumulator opcodes. -/
def Obligations.AccumulatorCompletes : Prop :=
  ∀ (s : State) (a : Word),
    (∃ lo hi : Byte, hi ++ lo = a ∧
      encode (.movAxAddrBit0Clear a) = [0xA0#8, lo, hi] ∧ encode (.movAxAddr a) = [0xA1#8, lo, hi] ∧
      encode (.movAddrAxBit0Clear a) = [0xA2#8, lo, hi] ∧ encode (.movAddrAx a) = [0xA3#8, lo, hi]) ∧
    (s.cur + 3 ≤ s.n →
      exec (.movAxAddrBit0Clear a) s =
        .next (s.afterRecord 3 { op := .mov, dst := .reg 0#3 .word, src := .direct a.toNat }) ∧
      exec (.movAxAddr a) s =
        .next (s.afterRecord 3 { op := .mov, dst := .reg 0#3 .word, src := .direct a.toNat }) ∧
      exec (.movAddrAxBit0Clear a) s =
        .next (s.afterRecord 3 { op := .mov, dst := .direct a.toNat, src := .reg 0#3 .word }) ∧
      exec (.movAddrAx a) s =
        .next (s.afterRecord 3 { op := .mov, dst := .direct a.toNat, src := .reg 0#3 .word })) ∧
    (s.n < s.cur + 3 →
      TakesEndOfStream s (exec (.movAxAddrBit0Clear a) s) ∧ TakesEndOfStream s (exec (.movAxAddr a) s) ∧
      TakesEndOfStream s (exec (.movAddrAxBit0Clear a) s) ∧ TakesEndOfStream s (exec (.movAddrAx a) s))

/-- Bit 0 of the accumulator opcodes selects nothing (the spec's inference in R52, log entry 10): A0 does in every state
what A1 does, and A2 what A3 does. -/
def Obligations.AccumulatorBit0SelectsNothing : Prop :=
  ∀ (s : State) (a : Word), exec (.movAxAddrBit0Clear a) s = exec (.movAxAddr a) s ∧
    exec (.movAddrAxBit0Clear a) s = exec (.movAddrAx a) s

/-- The frame of every instruction: the stream, every byte of it and its length stay; a completed instruction writes only
`st`, `cur` and `out`, a failing one only `st` and `err`; and it is one of the two. -/
def Obligations.FrameOfEveryInstruction : Prop :=
  ∀ (i : Instr) (s t : State), exec i s = .next t →
    (∀ a, t.byteAt a = s.byteAt a) ∧ t.mem = s.mem ∧ t.n = s.n ∧
    (t.st = .scanning ∨ t.st = .error) ∧
    (t.st = .scanning → t.err = s.err) ∧
    (t.st = .error → t.cur = s.cur ∧ t.out = s.out)

/-! ### Whole-machine rules -/

/-- R42: a read of an offset gives the same byte after any number of steps, from any state. -/
def Obligations.StreamReadsAreStable : Prop :=
  ∀ (k : Nat) (s t : State) (a : Nat), run k s = .next t → t.byteAt a = s.byteAt a

/-- R43: the classifier reads only the byte at the cursor, and decoding an instruction of length `L` reads no byte at
`cur + L` or beyond: two states that differ only in bytes elsewhere, and in how many follow, step alike. -/
def Obligations.NoReadAhead : Prop :=
  ∀ s s' : State, s'.cur = s.cur → s'.st = s.st → s'.err = s.err → s'.out = s.out →
    (∀ b, s.st = .dispatching → s.byteAt s.cur = some b → s'.byteAt s.cur = some b →
      ∃ t t', step s = .next t ∧ step s' = .next t' ∧
        t'.cur = t.cur ∧ t'.st = t.st ∧ t'.err = t.err ∧ t'.out = t.out) ∧
    (∀ f d i rest, s.st = .decoding f d → decodeForm f s.remaining = some (i, rest) →
      (∀ a, s.cur ≤ a → a < s.cur + i.length → s'.byteAt a = s.byteAt a) →
      ∃ t t', step s = .next t ∧ step s' = .next t' ∧ t.cur = s.cur + i.length ∧
        t'.cur = t.cur ∧ t'.st = t.st ∧ t'.err = t.err ∧ t'.out = t.out)

/-- R28: a record is appended only in the step that completes its instruction, all of whose bytes are there; a step that
takes an error appends nothing; the earlier records stay in front. -/
def Obligations.RecordAppendedOnlyOnCompletion : Prop :=
  ∀ s t : State, step s = .next t →
    (t.out = s.out ∨ ∃ f d i rest, s.st = .decoding f d ∧ decodeForm f s.remaining = some (i, rest) ∧
      s.cur + i.length ≤ s.n ∧ t.cur = s.cur + i.length ∧ t.st = .scanning ∧ t.out = s.out ++ [specRecord i]) ∧
    (t.st = .error → t.out = s.out)

/-- The cursor is written only in the step that completes an instruction, by its length (R19; that it holds the start
meanwhile and after an error is the spec's decision D7). -/
def Obligations.CursorWrittenOnlyOnCompletion : Prop :=
  ∀ s t : State, step s = .next t →
    (t.cur = s.cur ∧ t.st ≠ .scanning) ∨
    (∃ f d i rest, s.st = .decoding f d ∧ decodeForm f s.remaining = some (i, rest) ∧
      t.cur = s.cur + i.length ∧ t.st = .scanning)

/-- The cursor never moves backward and never passes the end of the stream (the spec's inference in R20), in any run from a
state whose cursor is not past it. -/
def Obligations.CursorMonotoneAndBounded : Prop :=
  ∀ (k : Nat) (s t : State), s.cur ≤ s.n → run k s = .next t → s.cur ≤ t.cur ∧ t.cur ≤ t.n

/-- Taking an error writes `st` and `err` and nothing else (R96; the spec's decisions D6 and D7), and is one of the block's
two kinds, each raised where R92 says. -/
def Obligations.ErrorEntry : Prop :=
  ∀ s t : State, step s = .next t → t.st = .error →
    (s.st = .dispatching ∧ ∃ b, s.byteAt s.cur = some b ∧ classify b = none ∧ t = s.afterError .unsupportedOpcode b) ∨
    (∃ f d, s.st = .decoding f d ∧ decodeForm f s.remaining = none ∧ t = s.afterError .unexpectedEndOfStream 0#8)

/-- R26's width invariant: an emitted record is a `mov`; both registers of a register/memory record have the opcode's width;
a byte-wide immediate record's value is in -128..127; the accumulator records name `Reg(0, 1)`. That the width is bit 0 of
the opcode byte is the spec's inference in R50 (log entry 15). -/
def Obligations.RecordWidths : Prop :=
  ∀ (s t : State) (f : Form) (d : DecodeRegs) (b0 : Byte) (r : Record), s.st = .decoding f d →
    s.byteAt s.cur = some b0 → step s = .next t → t.out = s.out ++ [r] →
    r.op = .mov ∧
    (f = .movRmReg → ∀ w, r.dst.width? = some w ∨ r.src.width? = some w →
      w = if b0.toNat % 2 = 1 then .word else .byte) ∧
    (f = .movImmReg → ∃ i w v, r.dst = .reg i w ∧ r.src = .imm v ∧ (w = .byte → -128 ≤ v ∧ v ≤ 127)) ∧
    (f = .movMemAcc → r.dst = .reg 0#3 .word) ∧
    (f = .movAccMem → r.src = .reg 0#3 .word)

/-- Every emitted operand is in the range R25 gives it (the address's range is the spec's decision D8), and every record
names a register (the spec's inference in R77). -/
def Obligations.EmittedOperandsInRange : Prop :=
  ∀ (s t : State) (r : Record), step s = .next t → t.out = s.out ++ [r] →
    r.dst.InRange ∧ r.src.InRange ∧ (r.dst.isReg = true ∨ r.src.isReg = true)

/-! ### Launch, the invariant, whole runs -/

/-- The launch values (the spec's decision D11 in R32 and R107): a launch that is taken starts on exactly the supplied
stream with everything else at its launch value; one from the reset state, `Done` or `Error` (its decision D15 in R108) is
always taken, and leaves the state `launched bytes` that the statements about runs start from. -/
def Obligations.LaunchValues : Prop :=
  ∀ (bytes : List Byte) (s : State),
    (∀ t, launch bytes s = .next t → t.cur = 0 ∧ t.st = .scanning ∧ t.err = { cause := .none, byte := 0#8 } ∧
      t.out = [] ∧ t.n = bytes.length ∧ ∀ a, t.byteAt a = bytes[a]?) ∧
    launch bytes State.reset = .next (launched bytes) ∧
    (s.st = .done ∨ s.st = .error → launch bytes s = .next (launched bytes))

/-- No launch while a run is in progress (the spec's decisions D15 and D20 in R108 and R110; log entry 9). -/
def Obligations.NoLaunchDuringRun : Prop :=
  ∀ (bytes : List Byte) (s : State), s ≠ State.reset → s.st ≠ .done → s.st ≠ .error →
    launch bytes s = .refused .launchDuringRun

/-- The reset state, whose empty stream is the model's choice (log entry 2), meets the invariant. -/
def Obligations.ResetMeetsInvariant : Prop := State.reset.Inv

/-- The state after a launch on any stream meets the invariant. -/
def Obligations.LaunchMeetsInvariant : Prop := ∀ bytes : List Byte, (launched bytes).Inv

/-- Every step keeps the invariant: the stream's canonical form, the cursor within the stream, the form that of the byte at
the cursor, a cause exactly in `Error` and the right one, the output the records of exactly the bytes before the cursor. -/
def Obligations.StepKeepsInvariant : Prop := ∀ s t : State, s.Inv → step s = .next t → t.Inv

/-- From a state that meets the invariant the step stops only in the terminal states: the fault `cursorPastEnd` and the
refusals are never met. -/
def Obligations.OnlyTerminalStatesStop : Prop :=
  ∀ s : State, s.Inv → (∃ t, step s = .next t) ∨ (s.st = .done ∧ step s = .fault .stuckInDone) ∨
    (s.st = .error ∧ step s = .fault .stuckInError)

/-- At every point of a run from a launch, `out` is the records, in stream order, of instructions whose encodings are
exactly the bytes before the cursor; in `Error` the bytes at the cursor are the failing instruction's, with no record; in
`Done` there are none left (the spec's inference in R97, its decision D22 in R112). -/
def Obligations.OutputIsTheDecodedPrefix : Prop :=
  ∀ (bytes : List Byte) (k : Nat) (s : State), Reaches bytes k s →
    (∃ is : List Instr, (∀ i ∈ is, i.wf = true) ∧ bytes.take s.cur = is.flatMap encode ∧ s.out = is.map specRecord) ∧
    (s.st = .done → s.cur = bytes.length ∧ s.err = { cause := .none, byte := 0#8 }) ∧
    (s.st = .error →
      (s.err.cause = .unsupportedOpcode ∧ decode (bytes.drop s.cur) = .unsupported s.err.byte) ∨
      (s.err.cause = .unexpectedEndOfStream ∧ s.err.byte = 0#8 ∧ decode (bytes.drop s.cur) = .truncated))

/-- What the host reads at the end of a run (R30, R112; the codes are the spec's decisions D5 and D6): `Done` with the cursor
at the end and no cause, or `Error` with one of the two causes, the byte of `UnexpectedEndOfStream` being 0. -/
def Obligations.ObservationOfEndedRun : Prop :=
  ∀ (bytes : List Byte) (k : Nat) (s : State), Reaches bytes k s →
    (s.st = .done → s.observe = { out := s.out, st := 3#3, cause := 0#2, errByte := 0#8, cur := bytes.length }) ∧
    (s.st = .error →
      (∃ b, bytes[s.cur]? = some b ∧ classify b = none ∧
        s.observe = { out := s.out, st := 4#3, cause := 1#2, errByte := b, cur := s.cur }) ∨
      (s.cur < bytes.length ∧
        s.observe = { out := s.out, st := 4#3, cause := 2#2, errByte := 0#8, cur := s.cur }))

/-- Every run ends: on any stream, with `k` records at the end, `2k <= N`, and the run takes `3k + 1` transitions to `Done`,
`3k + 2` to `UnsupportedOpcode`, or `3k + 3` to `UnexpectedEndOfStream` (the spec's inference in R111). -/
def Obligations.EveryRunTerminates : Prop :=
  ∀ bytes : List Byte, ∃ s : State, 2 * s.out.length ≤ bytes.length ∧
    ((s.st = .done ∧ s.err.cause = .none ∧ Reaches bytes (3 * s.out.length + 1) s) ∨
     (s.st = .error ∧ s.err.cause = .unsupportedOpcode ∧ Reaches bytes (3 * s.out.length + 2) s) ∨
     (s.st = .error ∧ s.err.cause = .unexpectedEndOfStream ∧ Reaches bytes (3 * s.out.length + 3) s))

/-- A stream that is the concatenated encodings of well-formed instructions is decoded whole: the run ends `Done` with
exactly their records (R3, R97, R112). -/
def Obligations.EncodedStreamDecodesWhole : Prop :=
  ∀ is : List Instr, (∀ i ∈ is, i.wf = true) →
    ∃ s : State, Reaches (is.flatMap encode) (3 * is.length + 1) s ∧ s.st = .done ∧ s.out = is.map specRecord ∧
      s.cur = (is.flatMap encode).length ∧ s.err.cause = .none

/-- In a realisation whose cursor register suits the stream, the register holds the cursor: it never wraps (R7, R18 and the
spec's inference in R20; the width is the open constant `Config.cursorBits`). -/
def Obligations.CursorRegisterNeverWraps : Prop :=
  ∀ s : State, s.Inv → Config.streamFits s.n → s.cursorRegister.toNat = s.cur

/-- The codes of `st`, of the form and of `err.cause` (the spec's decisions D5 and D6 in R22 and R23), and the codes never
held; the form field has a value only in `Decoding`; two driver states of equal code and form field are the same but for
the decoder's registers. -/
def Obligations.StatusCodes : Prop :=
  St.code .scanning = 0#3 ∧ St.code .dispatching = 1#3 ∧ (∀ f d, St.code (.decoding f d) = 2#3) ∧ St.code .done = 3#3 ∧
  St.code .error = 4#3 ∧
  (∀ d, St.formField (.decoding .movImmReg d) = some 0#2 ∧ St.formField (.decoding .movRmReg d) = some 1#2 ∧
    St.formField (.decoding .movMemAcc d) = some 2#2 ∧ St.formField (.decoding .movAccMem d) = some 3#2) ∧
  (∀ st : St, st.formField ≠ none ↔ st.code = 2#3) ∧
  (∀ st st' : St, st.code = st'.code → st.formField = st'.formField →
    st = st' ∨ ∃ f d d', st = .decoding f d ∧ st' = .decoding f d') ∧
  (∀ st : St, st.code.toNat ≤ 4) ∧
  Cause.code .none = 0#2 ∧ Cause.code .unsupportedOpcode = 1#2 ∧ Cause.code .unexpectedEndOfStream = 2#2 ∧
  ∀ c : Cause, c.code ≠ 3#2

/-! ### Cursor primitives and the interface -/

/-- `Consume(k)` is all or nothing (the spec's decision D18 in R37): past the end it answers nothing, else exactly the `k`
bytes at the read pointer, in order, and the pointer moves by `k`. -/
def Obligations.ConsumeIsAllOrNothing : Prop :=
  ∀ (s : State) (k : Nat) (d : DecodeRegs),
    (s.n < d.p + k → s.consume k d = none) ∧
    (d.p + k ≤ s.n → ∃ bs, s.consume k d = some (bs, { d with p := d.p + k }) ∧ bs.length = k ∧
      ∀ j, j < k → bs[j]? = s.byteAt (d.p + j))

/-- An instruction placed by `withFetchWord` is the one the next step runs (log entry 4), from every state. -/
def Obligations.FetchWordIsRunNext : Prop :=
  ∀ (s : State) (nbits w : Nat) (i : Instr), s.mem.wf = true → decodeTableWord nbits w = some i →
    step (s.withFetchWord nbits w) = exec i (s.withFetchWord nbits w)

/-! ### Names and rendering -/

/-- R15: the register table, every index at both widths. -/
def Obligations.RegisterNameTable : Prop :=
  (List.range 8).map (fun i => (regName (BitVec.ofNat 3 i) .byte).text) =
    [['a', 'l'], ['c', 'l'], ['d', 'l'], ['b', 'l'], ['a', 'h'], ['c', 'h'], ['d', 'h'], ['b', 'h']] ∧
  (List.range 8).map (fun i => (regName (BitVec.ofNat 3 i) .word).text) =
    [['a', 'x'], ['c', 'x'], ['d', 'x'], ['b', 'x'], ['s', 'p'], ['b', 'p'], ['s', 'i'], ['d', 'i']]

/-- R60: the base expression table. -/
def Obligations.BaseExpressionTable : Prop :=
  (List.range 8).map (fun i => baseText (BitVec.ofNat 3 i)) =
    [['b', 'x', '+', 's', 'i'], ['b', 'x', '+', 'd', 'i'], ['b', 'p', '+', 's', 'i'], ['b', 'p', '+', 'd', 'i'],
     ['s', 'i'], ['d', 'i'], ['b', 'p'], ['b', 'x']]

/-- R72, R74, R75: how a register, a direct address and an immediate render. -/
def Obligations.RenderRegisterAddressImmediate : Prop :=
  (∀ i w, renderOp (.reg i w) = (regName i w).text) ∧
  (∀ a, renderOp (.direct a) = ['['] ++ decU a ++ [']']) ∧
  (∀ v, renderOp (.imm v) = decS v)

/-- The line of a record and the two shapes of a memory operand (R71 and R73; what a negative displacement looks like is
the spec's decision D9, and that text is no output of the block its decision D2). -/
def Obligations.RenderLineAndMemory : Prop :=
  (∀ x y, render { op := .mov, dst := x, src := y } = ['m', 'o', 'v', ' '] ++ renderOp x ++ [',', ' '] ++ renderOp y) ∧
  (∀ b, renderOp (.mem b 0) = ['['] ++ baseText b ++ [']']) ∧
  (∀ b d, d ≠ 0 → renderOp (.mem b d) = ['['] ++ baseText b ++ [' ', '+', ' '] ++ decS d ++ [']'])

/-- `dec_u` is the shortest decimal spelling and `dec_s` puts a minus sign before negative numbers only (the spec's decision
D10 in R76): the digits read back as the number, and the first is no zero unless it is the only one. -/
def Obligations.DecimalIsShortest : Prop :=
  (∀ a : Nat, (decU a).foldl (fun v c => 10 * v + (c.toNat - 48)) 0 = a ∧
    (∀ c ∈ decU a, 48 ≤ c.toNat ∧ c.toNat ≤ 57) ∧ decU a ≠ [] ∧ ((decU a).head? = some '0' → decU a = ['0'])) ∧
  (∀ v : Int, (0 ≤ v → decS v = decU v.toNat) ∧ (v < 0 → decS v = '-' :: decU (-v).toNat))

/-- The bytes of a register pair decode to the register form, whose record renders exactly the two names of the register
table, at both widths and in both directions (properties S6 and S7 of 95_test_vectors.md; the direction of each opcode is
the spec's inference in R65, log entry 15). -/
def Obligations.RegisterPairsRender : Prop :=
  ∀ (s : State) (reg rm : RegIx), s.cur + 2 ≤ s.n →
    decode [0x88#8, modRM 0b11#2 reg rm] = .instr (.movRm8R8 reg (.reg rm)) [] ∧
    decode [0x89#8, modRM 0b11#2 reg rm] = .instr (.movRm16R16 reg (.reg rm)) [] ∧
    decode [0x8A#8, modRM 0b11#2 reg rm] = .instr (.movR8Rm8 reg (.reg rm)) [] ∧
    decode [0x8B#8, modRM 0b11#2 reg rm] = .instr (.movR16Rm16 reg (.reg rm)) [] ∧
    (∃ t r, exec (.movRm8R8 reg (.reg rm)) s = .next t ∧ t.out = s.out ++ [r] ∧
      render r = ['m', 'o', 'v', ' '] ++ (regName rm .byte).text ++ [',', ' '] ++ (regName reg .byte).text) ∧
    (∃ t r, exec (.movRm16R16 reg (.reg rm)) s = .next t ∧ t.out = s.out ++ [r] ∧
      render r = ['m', 'o', 'v', ' '] ++ (regName rm .word).text ++ [',', ' '] ++ (regName reg .word).text) ∧
    (∃ t r, exec (.movR8Rm8 reg (.reg rm)) s = .next t ∧ t.out = s.out ++ [r] ∧
      render r = ['m', 'o', 'v', ' '] ++ (regName reg .byte).text ++ [',', ' '] ++ (regName rm .byte).text) ∧
    (∃ t r, exec (.movR16Rm16 reg (.reg rm)) s = .next t ∧ t.out = s.out ++ [r] ∧
      render r = ['m', 'o', 'v', ' '] ++ (regName reg .word).text ++ [',', ' '] ++ (regName rm .word).text)
end

