-- ==== Sys2Proof/Laws/Decode.lean ====
section
/-! SUPPORT. The fields of encoded bytes read back (rules R39, R49, R51, R58). -/

namespace Sys2Proof

@[simp] theorem modField_modRM (mod : BitVec 2) (reg rm : RegIx) : modField (modRM mod reg rm) = mod := by
  revert mod reg rm; decide

@[simp] theorem regField_modRM (mod : BitVec 2) (reg rm : RegIx) : regField (modRM mod reg rm) = reg := by
  revert mod reg rm; decide

@[simp] theorem rmField_modRM (mod : BitVec 2) (reg rm : RegIx) : rmField (modRM mod reg rm) = rm := by
  revert mod reg rm; decide

/-- A ModRM byte is its three fields. -/
@[simp] theorem modRM_fields (m : Byte) : modRM (modField m) (regField m) (rmField m) = m := by
  revert m; decide

theorem joinWord_toNat (lo hi : Byte) : (joinWord lo hi).toNat = lo.toNat + 256 * hi.toNat := by
  have h1 := lo.isLt
  rw [joinWord, BitVec.toNat_append, Nat.shiftLeft_eq, ← Nat.shiftLeft_eq, ← Nat.shiftLeft_add_eq_or_of_lt h1,
    Nat.shiftLeft_eq]
  omega

@[simp] theorem joinWord_low_high (v : Word) : joinWord (lowByte v) (highByte v) = v := by
  apply BitVec.eq_of_toNat_eq
  have h1 := v.isLt
  rw [joinWord_toNat, lowByte, highByte, BitVec.extractLsb'_toNat, BitVec.extractLsb'_toNat, Nat.shiftRight_zero,
    Nat.shiftRight_eq_div_pow]
  omega

@[simp] theorem lowByte_joinWord (lo hi : Byte) : lowByte (joinWord lo hi) = lo := by
  apply BitVec.eq_of_toNat_eq
  have h1 := lo.isLt
  rw [lowByte, BitVec.extractLsb'_toNat, joinWord_toNat, Nat.shiftRight_zero]
  omega

@[simp] theorem highByte_joinWord (lo hi : Byte) : highByte (joinWord lo hi) = hi := by
  apply BitVec.eq_of_toNat_eq
  have h1 := lo.isLt
  have h2 := hi.isLt
  rw [highByte, BitVec.extractLsb'_toNat, joinWord_toNat, Nat.shiftRight_eq_div_pow]
  omega

@[simp] theorem immReg_immOpcode (top : BitVec 5) (r : RegIx) : immReg (immOpcode top r) = r := by
  revert top r; decide

@[simp] theorem immWidth_byteOpcode (r : RegIx) : immWidth (immOpcode 0b10110#5 r) = .byte := by
  revert r; decide

@[simp] theorem immWidth_wordOpcode (r : RegIx) : immWidth (immOpcode 0b10111#5 r) = .word := by
  revert r; decide

@[simp] theorem classify_byteOpcode (r : RegIx) : classify (immOpcode 0b10110#5 r) = some .movImmReg := by
  revert r; decide

@[simp] theorem classify_wordOpcode (r : RegIx) : classify (immOpcode 0b10111#5 r) = some .movImmReg := by
  revert r; decide

/-- An opcode byte of the immediate form is its width and register. -/
theorem immOpcode_of_classify (b : Byte) (h : classify b = some .movImmReg) :
    b = immOpcode (match immWidth b with | .byte => 0b10110#5 | .word => 0b10111#5) (immReg b) := by
  revert b; decide

/-- An opcode byte of the register/memory form is its direction and width. -/
theorem regMemOpcode_of_classify (b : Byte) (h : classify b = some .movRmReg) :
    b = match rmDirection b, rmWidth b with
      | .regIsSrc, .byte => 0x88#8 | .regIsSrc, .word => 0x89#8
      | .regIsDst, .byte => 0x8A#8 | .regIsDst, .word => 0x8B#8 := by
  revert b; decide

theorem memAccOpcode_of_classify (b : Byte) (h : classify b = some .movMemAcc) :
    b = 0xA0#8 ∨ b = 0xA1#8 := by
  revert b; decide

theorem accMemOpcode_of_classify (b : Byte) (h : classify b = some .movAccMem) :
    b = 0xA2#8 ∨ b = 0xA3#8 := by
  revert b; decide

/-! ### The instructions the forms' decoders build -/

@[simp] theorem regMemInstr_form (d : Direction) (w : Width) (reg : RegIx) (rm : RmForm) :
    (regMemInstr d w reg rm).form = .movRmReg := by
  cases d <;> cases w <;> rfl

@[simp] theorem regMemInstr_length (d : Direction) (w : Width) (reg : RegIx) (rm : RmForm) :
    (regMemInstr d w reg rm).length = 2 + rm.tailLength := by
  cases d <;> cases w <;> rfl

@[simp] theorem memAccInstr_form (b : Byte) (a : Word) : (memAccInstr b a).form = .movMemAcc := by
  unfold memAccInstr; split <;> rfl

@[simp] theorem memAccInstr_length (b : Byte) (a : Word) : (memAccInstr b a).length = 3 := by
  unfold memAccInstr; split <;> rfl

@[simp] theorem accMemInstr_form (b : Byte) (a : Word) : (accMemInstr b a).form = .movAccMem := by
  unfold accMemInstr; split <;> rfl

@[simp] theorem accMemInstr_length (b : Byte) (a : Word) : (accMemInstr b a).length = 3 := by
  unfold accMemInstr; split <;> rfl

/-- Every instruction has 2, 3 or 4 bytes (R69). -/
theorem length_range (i : Instr) : 2 ≤ i.length ∧ i.length ≤ 4 := by
  cases i <;> simp only [Instr.length] <;>
    first | omega | (rename_i rm; cases rm <;> simp [RmForm.tailLength])

/-- The form of a decoded instruction is the form whose decoder read it. -/
theorem decodeForm_form {f : Form} {bs rest : List Byte} {i : Instr} (h : decodeForm f bs = some (i, rest)) :
    i.form = f := by
  cases f with
  | movRmReg =>
    simp only [decodeForm, decodeRegMem] at h
    split at h
    · split at h <;> cases h
      simp
    · cases h
  | movImmReg =>
    simp only [decodeForm, decodeImm] at h
    split at h
    · split at h <;> cases h <;> rfl
    · cases h
  | movMemAcc =>
    simp only [decodeForm, decodeAcc] at h
    split at h <;> cases h
    simp
  | movAccMem =>
    simp only [decodeForm, decodeAcc] at h
    split at h <;> cases h
    simp

theorem decodeRm_length {mod : BitVec 2} {rm : RegIx} {bs rest : List Byte} {x : RmForm}
    (h : decodeRm mod rm bs = some (x, rest)) : bs.length = x.tailLength + rest.length := by
  unfold decodeRm at h
  split at h
  · cases h; simp [RmForm.tailLength]
  · split at h
    · split at h
      · split at h <;> cases h
        simp [RmForm.tailLength]; omega
      · cases h; simp [RmForm.tailLength]
    · split at h <;> split at h <;> cases h <;> simp [RmForm.tailLength] <;> omega

/-- A form's decoder reads exactly the instruction's bytes. -/
theorem decodeForm_length {f : Form} {bs rest : List Byte} {i : Instr} (h : decodeForm f bs = some (i, rest)) :
    bs.length = i.length + rest.length := by
  cases f with
  | movRmReg =>
    simp only [decodeForm, decodeRegMem] at h
    split at h
    · split at h
      · next hx =>
        cases h
        have := decodeRm_length hx
        simp; omega
      · cases h
    · cases h
  | movImmReg =>
    simp only [decodeForm, decodeImm] at h
    split at h
    · split at h <;> cases h <;> simp [Instr.length] <;> omega
    · cases h
  | movMemAcc =>
    simp only [decodeForm, decodeAcc] at h
    split at h <;> cases h
    simp; omega
  | movAccMem =>
    simp only [decodeForm, decodeAcc] at h
    split at h <;> cases h
    simp; omega

/-- If the decoder answers an instruction, the decoder of that instruction's form read it. -/
theorem decode_eq_instr {bs rest : List Byte} {i : Instr} (h : decode bs = .instr i rest) :
    ∃ b tl, bs = b :: tl ∧ classify b = some i.form ∧ decodeForm i.form bs = some (i, rest) := by
  cases bs with
  | nil => cases h
  | cons b tl =>
    simp only [decode] at h
    split at h
    · cases h
    · next f hf =>
      split at h
      · next j r hj =>
        cases h
        have := decodeForm_form hj
        subst this
        exact ⟨b, tl, rfl, hf, hj⟩
      · cases h

end Sys2Proof
end

