-- ==== Sys2Proof/Laws/Memory.lean ====
section
/-! SUPPORT. The laws of the byte stream: a read after a write, every operation keeps the canonical form, runs of bytes. -/

namespace Sys2Proof.Machine

/-! ### Canonical form -/

theorem wfFrom_mono {lo lo' : Nat} {m : Memory} (h : Memory.wfFrom lo m = true) (hle : lo' ≤ lo) :
    Memory.wfFrom lo' m = true := by
  cases m with
  | nil => rfl
  | cons c m =>
    simp only [Memory.wfFrom, Bool.and_eq_true, decide_eq_true_eq] at h ⊢
    exact ⟨⟨by omega, h.1.2⟩, h.2⟩

theorem write_wfFrom {lo : Nat} (m : Memory) (a : Nat) (b : Byte) (h : Memory.wfFrom lo m = true) (ha : lo ≤ a) :
    Memory.wfFrom lo (Memory.write m a b) = true := by
  induction m generalizing lo with
  | nil => by_cases hb : b = Memory.unlisted <;> simp [Memory.write, Memory.wfFrom, hb, ha]
  | cons c m ih =>
    obtain ⟨k, c⟩ := c
    simp only [Memory.wfFrom, Bool.and_eq_true, decide_eq_true_eq] at h
    obtain ⟨⟨hk, hc⟩, hm⟩ := h
    unfold Memory.write
    split
    · next hlt =>
      by_cases hb : b = Memory.unlisted
      · simp [hb, Memory.wfFrom, hk, hc, hm]
      · simpa [hb, Memory.wfFrom, ha, hc] using ⟨hlt, hm⟩
    · split
      · next heq =>
        by_cases hb : b = Memory.unlisted
        · simpa [hb] using wfFrom_mono hm (by omega)
        · simpa [hb, Memory.wfFrom, ha, heq] using ⟨by omega, hm⟩
      · simpa [Memory.wfFrom, hk, hc] using ih hm (by omega)

/-- A write keeps the canonical form. -/
theorem write_wf (m : Memory) (a : Nat) (b : Byte) (h : m.wf = true) : (m.write a b).wf = true :=
  write_wfFrom m a b h (Nat.zero_le a)

/-- Writing consecutive bytes keeps the canonical form. -/
theorem writeBytes_wf (m : Memory) (a : Nat) (bs : List Byte) (h : m.wf = true) : (m.writeBytes a bs).wf = true := by
  induction bs generalizing m a with
  | nil => exact h
  | cons b bs ih => exact ih _ _ (write_wf m a b h)

theorem reset_mem_wf : State.reset.mem.wf = true := rfl

/-! ### Which offsets are listed -/

theorem mem_write {m : Memory} {a : Nat} {b : Byte} {c : Host.Cell} (h : c ∈ m.write a b) : c ∈ m ∨ c.1 = a := by
  induction m with
  | nil =>
    by_cases hb : b = Memory.unlisted <;> simp [Memory.write, hb] at h
    exact .inr (by rw [h])
  | cons d m ih =>
    obtain ⟨k, d⟩ := d
    unfold Memory.write at h
    split at h
    · by_cases hb : b = Memory.unlisted <;> simp [hb] at h
      · exact .inl (by simpa using h)
      · rcases h with h | h | h
        · exact .inr (by rw [h])
        · exact .inl (by simp [h])
        · exact .inl (by simp [h])
    · split at h
      · by_cases hb : b = Memory.unlisted <;> simp [hb] at h
        · exact .inl (by simp [h])
        · rcases h with h | h
          · exact .inr (by rw [h])
          · exact .inl (by simp [h])
      · rcases List.mem_cons.1 h with h | h
        · exact .inl (by simp [h])
        · exact (ih h).imp (fun h => by simp [h]) id

theorem mem_writeBytes {m : Memory} {a : Nat} {bs : List Byte} {c : Host.Cell} (h : c ∈ m.writeBytes a bs) :
    c ∈ m ∨ (a ≤ c.1 ∧ c.1 < a + bs.length) := by
  induction bs generalizing m a with
  | nil => exact .inl h
  | cons b bs ih =>
    rcases ih h with h | h
    · rcases mem_write h with h | h
      · exact .inl h
      · exact .inr (by simp; omega)
    · exact .inr (by simp; omega)

/-! ### Read after write -/

theorem read_below {lo : Nat} {m : Memory} (h : Memory.wfFrom lo m = true) {a : Nat} (ha : a < lo) :
    m.read a = Memory.unlisted := by
  induction m generalizing lo with
  | nil => rfl
  | cons c m ih =>
    obtain ⟨k, c⟩ := c
    simp only [Memory.wfFrom, Bool.and_eq_true, decide_eq_true_eq] at h
    have hk : k ≠ a := by omega
    simpa [Memory.read, hk] using ih h.2 (by omega)

theorem read_write_from {lo : Nat} (m : Memory) (a i : Nat) (b : Byte) (h : Memory.wfFrom lo m = true) :
    (m.write a b).read i = if i = a then b else m.read i := by
  induction m generalizing lo with
  | nil =>
    by_cases hb : b = Memory.unlisted <;> simp [Memory.write, Memory.read, hb, eq_comm]
  | cons c m ih =>
    obtain ⟨k, c⟩ := c
    simp only [Memory.wfFrom, Bool.and_eq_true, decide_eq_true_eq] at h
    unfold Memory.write
    split
    · next hlt =>
      by_cases hb : b = Memory.unlisted
      · by_cases hi : i = a
        · have hka : k ≠ a := by omega
          have := read_below h.2 (a := a) (by omega)
          simp [hb, hi, Memory.read, hka, this]
        · simp [hb, hi]
      · by_cases hi : i = a
        · simp [hb, hi, Memory.read]
        · simp [hb, hi, Memory.read, Ne.symm hi]
    · split
      · next heq =>
        by_cases hb : b = Memory.unlisted
        · by_cases hi : i = a
          · have := read_below h.2 (a := a) (by omega)
            simp [hb, hi, this]
          · have hk : k ≠ i := by omega
            simp [hb, hi, Memory.read, hk]
        · by_cases hi : i = a
          · simp [hb, hi, Memory.read]
          · have hk : k ≠ i := by omega
            simp [hb, hi, Memory.read, hk, Ne.symm hi]
      · have hka : k ≠ a := by omega
        by_cases hk : k = i
        · have hi : i ≠ a := by omega
          simp [Memory.read, hk, hi]
        · simpa [Memory.read, hk] using ih h.2

/-- A read after a write: the byte written there, every other offset as before. -/
theorem read_write (m : Memory) (a i : Nat) (b : Byte) (h : m.wf = true) :
    (m.write a b).read i = if i = a then b else m.read i := read_write_from m a i b h

/-- A read after writing consecutive bytes. -/
theorem read_writeBytes (m : Memory) (a i : Nat) (bs : List Byte) (h : m.wf = true) :
    (m.writeBytes a bs).read i = if a ≤ i then (bs[i - a]?).getD (m.read i) else m.read i := by
  induction bs generalizing m a with
  | nil => simp [Memory.writeBytes]
  | cons b bs ih =>
    rw [Memory.writeBytes, ih _ _ (write_wf m a b h), read_write m a i b h]
    rcases Nat.lt_trichotomy i a with hi | hi | hi
    · rw [if_neg (by omega), if_neg (by omega), if_neg (by omega)]
    · subst hi
      rw [if_neg (by omega), if_pos rfl, if_pos (le_refl i)]
      simp
    · have hne : i ≠ a := by omega
      have hs : i - a = (i - (a + 1)) + 1 := by omega
      rw [if_pos (by omega), if_neg hne, if_pos (by omega), hs, List.getElem?_cons_succ]

/-! ### Runs of bytes -/

@[simp] theorem bytes_length (m : Memory) (p k : Nat) : (m.bytes p k).length = k := by
  induction k generalizing p with
  | zero => rfl
  | succ k ih => simp [Memory.bytes, ih]

theorem bytes_append (m : Memory) (p j k : Nat) : m.bytes p (j + k) = m.bytes p j ++ m.bytes (p + j) k := by
  induction j generalizing p with
  | zero => simp [Memory.bytes]
  | succ j ih =>
    rw [show j + 1 + k = (j + k) + 1 by omega]
    simp [Memory.bytes, ih (p + 1), show p + 1 + j = p + (j + 1) by omega]

theorem bytes_getElem? (m : Memory) (p k i : Nat) : (m.bytes p k)[i]? = if i < k then some (m.read (p + i)) else none := by
  induction k generalizing p i with
  | zero => simp [Memory.bytes]
  | succ k ih =>
    cases i with
    | zero => simp [Memory.bytes]
    | succ i => simp [Memory.bytes, ih (p + 1) i, show p + 1 + i = p + (i + 1) by omega]

/-- The bytes of a loaded stream are the bytes the host supplied. -/
theorem bytes_launched (bs : List Byte) : (launched bs).mem.bytes 0 bs.length = bs := by
  apply List.ext_getElem?
  intro i
  rw [bytes_getElem?]
  show (if i < bs.length then some ((Memory.writeBytes [] 0 bs).read (0 + i)) else none) = _
  rw [read_writeBytes [] 0 (0 + i) bs rfl]
  by_cases hi : i < bs.length
  · simp [hi]
  · simp [hi]

end Sys2Proof.Machine
end

