-- ==== Sys2Proof/Laws/State.lean ====
section
/-! SUPPORT. One lemma per field per update of State, so that no later proof unfolds a record update. -/

namespace Sys2Proof.Machine

@[simp] theorem raise_mem (e : ErrReg) (s : State) : (s.raise e).mem = s.mem := rfl
@[simp] theorem raise_n (e : ErrReg) (s : State) : (s.raise e).n = s.n := rfl
@[simp] theorem raise_cur (e : ErrReg) (s : State) : (s.raise e).cur = s.cur := rfl
@[simp] theorem raise_st (e : ErrReg) (s : State) : (s.raise e).st = .error := rfl
@[simp] theorem raise_err (e : ErrReg) (s : State) : (s.raise e).err = e := rfl
@[simp] theorem raise_out (e : ErrReg) (s : State) : (s.raise e).out = s.out := rfl

@[simp] theorem complete_mem (r : Record) (p : Nat) (s : State) : (s.complete r p).mem = s.mem := rfl
@[simp] theorem complete_n (r : Record) (p : Nat) (s : State) : (s.complete r p).n = s.n := rfl
@[simp] theorem complete_cur (r : Record) (p : Nat) (s : State) : (s.complete r p).cur = p := rfl
@[simp] theorem complete_st (r : Record) (p : Nat) (s : State) : (s.complete r p).st = .scanning := rfl
@[simp] theorem complete_err (r : Record) (p : Nat) (s : State) : (s.complete r p).err = s.err := rfl
@[simp] theorem complete_out (r : Record) (p : Nat) (s : State) : (s.complete r p).out = s.out ++ [r] := rfl

@[simp] theorem enterDecoding_mem (f : Form) (s : State) : (s.enterDecoding f).mem = s.mem := rfl
@[simp] theorem enterDecoding_n (f : Form) (s : State) : (s.enterDecoding f).n = s.n := rfl
@[simp] theorem enterDecoding_cur (f : Form) (s : State) : (s.enterDecoding f).cur = s.cur := rfl
@[simp] theorem enterDecoding_st (f : Form) (s : State) : (s.enterDecoding f).st = .decoding f (.start s.cur) := rfl
@[simp] theorem enterDecoding_err (f : Form) (s : State) : (s.enterDecoding f).err = s.err := rfl
@[simp] theorem enterDecoding_out (f : Form) (s : State) : (s.enterDecoding f).out = s.out := rfl

@[simp] theorem launched_mem (bs : List Byte) : (launched bs).mem = Memory.writeBytes [] 0 bs := rfl
@[simp] theorem launched_n (bs : List Byte) : (launched bs).n = bs.length := rfl
@[simp] theorem launched_cur (bs : List Byte) : (launched bs).cur = 0 := rfl
@[simp] theorem launched_st (bs : List Byte) : (launched bs).st = .scanning := rfl
@[simp] theorem launched_err (bs : List Byte) : (launched bs).err = { cause := .none, byte := 0#8 } := rfl
@[simp] theorem launched_out (bs : List Byte) : (launched bs).out = [] := rfl

@[simp] theorem start_p (c : Nat) : (DecodeRegs.start c).p = c := rfl

@[simp] theorem latch_p (d : DecodeRegs) (it : Item) (bs : List Byte) : (d.latch it bs).p = d.p := by
  cases it <;> rfl

/-- What `byteAt` and `remaining` read is fixed by the stream, its length and the cursor. -/
theorem byteAt_congr {s t : State} (hm : t.mem = s.mem) (hn : t.n = s.n) (a : Nat) : t.byteAt a = s.byteAt a := by
  simp [State.byteAt, hm, hn]

theorem remaining_congr {s t : State} (hm : t.mem = s.mem) (hn : t.n = s.n) (hc : t.cur = s.cur) :
    t.remaining = s.remaining := by
  simp [State.remaining, hm, hn, hc]

end Sys2Proof.Machine
end

