-- ==== Sys2Proof/Laws/Ops.lean ====
section
/-! SUPPORT. What each shared operation can do, said once: `consume`, `fetchItems`, `runDecoder`, `launch`. -/

namespace Sys2Proof.Machine

/-- How many bytes a list of items has. -/
def itemsSize (its : List Item) : Nat := (its.map Item.size).sum

theorem consume_eq_some {s : State} {k : Nat} {d d' : DecodeRegs} {bs : List Byte} (h : s.consume k d = some (bs, d')) :
    d.p + k ≤ s.n ∧ bs = s.mem.bytes d.p k ∧ d' = { d with p := d.p + k } := by
  unfold State.consume at h
  split at h
  · cases h
  · cases h; exact ⟨by omega, rfl, rfl⟩

theorem fetchItem_fits {s : State} (it : Item) {d : DecodeRegs} (h : d.p + it.size ≤ s.n) :
    s.fetchItem it d = some (s.mem.bytes d.p it.size,
      DecodeRegs.latch { d with p := d.p + it.size } it (s.mem.bytes d.p it.size)) := by
  simp [State.fetchItem, State.consume, Nat.not_lt.2 h]

theorem fetchItem_short {s : State} (it : Item) {d : DecodeRegs} (h : s.n < d.p + it.size) : s.fetchItem it d = none := by
  simp [State.fetchItem, State.consume, h]

/-- The `Consume` calls succeed exactly when all the bytes are there, and move the read pointer past them. -/
theorem fetchItems_fits {s : State} (its : List Item) {d : DecodeRegs} (h : d.p + itemsSize its ≤ s.n) :
    ∃ d', s.fetchItems its d = some d' ∧ d'.p = d.p + itemsSize its := by
  induction its generalizing d with
  | nil => exact ⟨d, rfl, by simp [itemsSize]⟩
  | cons it its ih =>
    have hs : itemsSize (it :: its) = it.size + itemsSize its := by simp [itemsSize]
    rw [hs] at h ⊢
    rw [State.fetchItems, fetchItem_fits it (by omega)]
    obtain ⟨d', h1, h2⟩ :=
      ih (d := DecodeRegs.latch { d with p := d.p + it.size } it (s.mem.bytes d.p it.size)) (by simp; omega)
    exact ⟨d', h1, by simp at h2; omega⟩

theorem fetchItems_short {s : State} (its : List Item) {d : DecodeRegs} (hd : d.p ≤ s.n)
    (h : s.n < d.p + itemsSize its) : s.fetchItems its d = none := by
  induction its generalizing d with
  | nil => simp [itemsSize] at h; omega
  | cons it its ih =>
    have hs : itemsSize (it :: its) = it.size + itemsSize its := by simp [itemsSize]
    rw [hs] at h
    by_cases hit : s.n < d.p + it.size
    · rw [State.fetchItems, fetchItem_short it hit]
    · rw [State.fetchItems, fetchItem_fits it (by omega)]
      exact ih (by simp; omega) (by simp; omega)

theorem size_pos (it : Item) : 0 < it.size := by cases it <;> decide

theorem fetchItems_overrun {s : State} (it : Item) (its : List Item) {d : DecodeRegs}
    (h : s.n < d.p + itemsSize (it :: its)) : s.fetchItems (it :: its) d = none := by
  by_cases hd : d.p ≤ s.n
  · exact fetchItems_short _ hd h
  · rw [State.fetchItems, fetchItem_short it (by have := size_pos it; omega)]

/-- A decoder completes exactly when all its bytes are there; otherwise it takes `UnexpectedEndOfStream`. -/
theorem runDecoder_eq (it : Item) (its : List Item) (r : Record) (s : State) :
    runDecoder (it :: its) r s =
      if s.cur + itemsSize (it :: its) ≤ s.n then .next (s.complete r (s.cur + itemsSize (it :: its)))
      else .next (s.raise unexpectedEndOfStream) := by
  unfold runDecoder
  split
  · next d hd =>
    by_cases h : s.cur + itemsSize (it :: its) ≤ s.n
    · obtain ⟨d', h1, h2⟩ := fetchItems_fits (it :: its) (d := .start s.cur) h
      rw [hd] at h1
      cases h1
      simp [h, h2]
    · rw [fetchItems_overrun it its (by simpa using h)] at hd
      cases hd
  · next hd =>
    by_cases h : s.cur + itemsSize (it :: its) ≤ s.n
    · obtain ⟨d', h1, _⟩ := fetchItems_fits (it :: its) (d := .start s.cur) h
      rw [hd] at h1
      cases h1
    · simp [h]

/-- A launch is allowed from `Done`, `Error` and the reset state, and then forgets the state it was made in. -/
theorem launch_eq_next {bs : List Byte} {s t : State} (h : launch bs s = .next t) :
    t = launched bs ∧ (s.st = .done ∨ s.st = .error ∨ s = State.reset) := by
  unfold launch at h
  split at h
  · next hl =>
    cases h
    exact ⟨rfl, by simpa [State.launchable, or_assoc] using hl⟩
  · cases h

end Sys2Proof.Machine
end

