-- ==== Sys2Proof/Laws/Operands.lean ====
section
/-! SUPPORT. The model's byte arithmetic (rule R10's formulas) is Lean's two's complement; the model's records are the
spec's. -/

namespace Sys2Proof.Machine

theorem sext16_eq_toInt (b : Byte) : sext16 b = b.toInt := by
  have hb := b.isLt
  unfold sext16
  rw [BitVec.toInt_eq_toNat_cond]
  split <;> split <;> omega

theorem int16_toNat (v : Word) : int16 v.toNat = v.toInt := by
  have hv := v.isLt
  unfold int16
  rw [BitVec.toInt_eq_toNat_cond]
  split <;> split <;> omega

theorem wordValue_eq_toNat (v : Word) : wordValue v = v.toNat := by
  have hv := v.isLt
  simp only [wordValue, le16, lowByte, highByte, BitVec.extractLsb'_toNat, Nat.shiftRight_zero]
  rw [Nat.shiftRight_eq_div_pow]
  omega

theorem le16_lt (lo hi : Byte) : le16 lo hi < 65536 := by
  have h1 := lo.isLt
  have h2 := hi.isLt
  unfold le16
  omega

@[simp] theorem rmOperand_eq_spec (w : Width) (rm : RmForm) : rmOperand w rm = specRmOperand w rm := by
  cases rm <;> simp [rmOperand, specRmOperand, sext16_eq_toInt, wordValue_eq_toNat, int16_toNat]

theorem specRmOperand_inRange (w : Width) (rm : RmForm) : (specRmOperand w rm).InRange := by
  cases rm with
  | reg rm => trivial
  | base rm => simp [specRmOperand, Operand.InRange]
  | baseDisp8 rm d =>
    have h1 := BitVec.le_toInt d
    have h2 := BitVec.toInt_lt (x := d)
    simp only [specRmOperand, Operand.InRange]
    constructor <;> omega
  | baseDisp16 rm d =>
    have h1 := BitVec.le_toInt d
    have h2 := BitVec.toInt_lt (x := d)
    simp only [specRmOperand, Operand.InRange]
    constructor <;> omega
  | direct a =>
    have := a.isLt
    simp only [specRmOperand, Operand.InRange]
    omega

theorem itemsSize_regMem (rm : RmForm) : itemsSize (regMemItems rm) = 2 + rm.tailLength := by
  cases rm <;> rfl

end Sys2Proof.Machine
end

