-- ==== Sys2Proof/Laws/Exec.lean ====
section
/-! SUPPORT. The Decoding transition's two ends, which every meaning answers one of. -/

namespace Sys2Proof.Machine

/-- What the meaning of an instruction of length `L` and record `r` answers. -/
def decoded (L : Nat) (r : Record) (s : State) : Host.Outcome State Fault Refusal :=
  if s.cur + L ≤ s.n then .next (s.complete r (s.cur + L)) else .next (s.raise unexpectedEndOfStream)

theorem execRegMem_eq (d : Direction) (w : Width) (reg : RegIx) (rm : RmForm) (s : State) :
    execRegMem d w reg rm s = decoded (2 + rm.tailLength) (orient d (.reg reg w) (specRmOperand w rm)) s := by
  rw [execRegMem, regMemItems, runDecoder_eq, ← regMemItems, itemsSize_regMem, regMemRecord, rmOperand_eq_spec, decoded]

theorem runDecoder_byteImm (r : Record) (s : State) : runDecoder (immItems .byte) r s = decoded 2 r s :=
  runDecoder_eq .opcode [.byteField] r s

theorem runDecoder_wordImm (r : Record) (s : State) : runDecoder (immItems .word) r s = decoded 3 r s :=
  runDecoder_eq .opcode [.wordField] r s

theorem runDecoder_acc (r : Record) (s : State) : runDecoder accItems r s = decoded 3 r s :=
  runDecoder_eq .opcode [.wordField] r s

/-- Every meaning at once: the instruction's length and the spec's record. -/
theorem exec_eq_decoded (i : Instr) (s : State) : exec i s = decoded i.length (specRecord i) s := by
  cases i with
  | movRm8R8 reg rm => exact execRegMem_eq .regIsSrc .byte reg rm s
  | movRm16R16 reg rm => exact execRegMem_eq .regIsSrc .word reg rm s
  | movR8Rm8 reg rm => exact execRegMem_eq .regIsDst .byte reg rm s
  | movR16Rm16 reg rm => exact execRegMem_eq .regIsDst .word reg rm s
  | movR8Imm8 r imm =>
    simp only [exec, execMovR8Imm8, runDecoder_byteImm, sext16_eq_toInt]; rfl
  | movR16Imm16 r imm =>
    simp only [exec, execMovR16Imm16, runDecoder_wordImm, wordValue_eq_toNat, int16_toNat]; rfl
  | movAxAddrBit0Clear a =>
    simp only [exec, execMovAxAddrBit0Clear, execMemAcc, runDecoder_acc, wordValue_eq_toNat]; rfl
  | movAxAddr a => simp only [exec, execMovAxAddr, execMemAcc, runDecoder_acc, wordValue_eq_toNat]; rfl
  | movAddrAxBit0Clear a =>
    simp only [exec, execMovAddrAxBit0Clear, execAccMem, runDecoder_acc, wordValue_eq_toNat]; rfl
  | movAddrAx a => simp only [exec, execMovAddrAx, execAccMem, runDecoder_acc, wordValue_eq_toNat]; rfl

/-- If a meaning answers a next state, it completed the instruction or took `UnexpectedEndOfStream`. -/
theorem exec_next_cases {i : Instr} {s t : State} (h : exec i s = .next t) :
    (s.cur + i.length ≤ s.n ∧ t = s.complete (specRecord i) (s.cur + i.length)) ∨
    (s.n < s.cur + i.length ∧ t = s.raise unexpectedEndOfStream) := by
  rw [exec_eq_decoded, decoded] at h
  split at h <;> cases h
  · exact .inl ⟨‹_›, rfl⟩
  · exact .inr ⟨by omega, rfl⟩

end Sys2Proof.Machine
end

