-- ==== Sys2Proof/Laws/PerInstr.lean ====
section
/-! SUPPORT. Statements made per instruction: the family EncodedLength, that an instruction's encoding has the bytes R69's
table counts, two at least and four at most. -/

namespace Sys2Proof.Laws

/-- A ModRM byte and at most two bytes after it. -/
theorem encodeRm_length (reg : RegIx) (rm : RmForm) : (encodeRm reg rm).length = 1 + rm.tailLength ∧ rm.tailLength ≤ 2 := by
  cases rm <;> exact ⟨rfl, by simp [RmForm.tailLength]⟩

namespace EncodedLength

/-- The encoding has exactly the table's number of bytes, and that is 2, 3 or 4. -/
def Statement (i : Instr) : Prop := (encode i).length = i.length ∧ 2 ≤ i.length ∧ i.length ≤ 4

theorem movRm8R8 (reg : RegIx) (rm : RmForm) : Statement (.movRm8R8 reg rm) := by
  have := encodeRm_length reg rm
  simp only [Statement, encode, Instr.length, List.length_cons]; omega

theorem movRm16R16 (reg : RegIx) (rm : RmForm) : Statement (.movRm16R16 reg rm) := by
  have := encodeRm_length reg rm
  simp only [Statement, encode, Instr.length, List.length_cons]; omega

theorem movR8Rm8 (reg : RegIx) (rm : RmForm) : Statement (.movR8Rm8 reg rm) := by
  have := encodeRm_length reg rm
  simp only [Statement, encode, Instr.length, List.length_cons]; omega

theorem movR16Rm16 (reg : RegIx) (rm : RmForm) : Statement (.movR16Rm16 reg rm) := by
  have := encodeRm_length reg rm
  simp only [Statement, encode, Instr.length, List.length_cons]; omega

theorem movR8Imm8 (r : RegIx) (imm8 : Byte) : Statement (.movR8Imm8 r imm8) := ⟨rfl, by simp [Instr.length]⟩

theorem movR16Imm16 (r : RegIx) (imm16 : Word) : Statement (.movR16Imm16 r imm16) := ⟨rfl, by simp [Instr.length]⟩

theorem movAxAddrBit0Clear (addr16 : Word) : Statement (.movAxAddrBit0Clear addr16) := ⟨rfl, by simp [Instr.length]⟩

theorem movAxAddr (addr16 : Word) : Statement (.movAxAddr addr16) := ⟨rfl, by simp [Instr.length]⟩

theorem movAddrAxBit0Clear (addr16 : Word) : Statement (.movAddrAxBit0Clear addr16) := ⟨rfl, by simp [Instr.length]⟩

theorem movAddrAx (addr16 : Word) : Statement (.movAddrAx addr16) := ⟨rfl, by simp [Instr.length]⟩

end EncodedLength

end Sys2Proof.Laws
end

