-- ==== Sys2Proof/Laws/Step.lean ====
section
/-! SUPPORT. Everything one step can do, said once, and what the step reads from the stream. -/

namespace Sys2Proof.Machine

theorem byteAt_eq_some {s : State} {i : Nat} {b : Byte} : s.byteAt i = some b ↔ i < s.n ∧ s.mem.read i = b := by
  simp [State.byteAt]

/-- The bytes left at the cursor, first byte first. -/
theorem remaining_cons {s : State} (h : s.cur < s.n) :
    s.remaining = s.mem.read s.cur :: s.mem.bytes (s.cur + 1) (s.n - (s.cur + 1)) := by
  rw [State.remaining, show s.n - s.cur = (s.n - (s.cur + 1)) + 1 by omega]
  rfl

/-- The bytes from an offset that exists, first byte first. -/
theorem bytes_of_byteAt {s : State} {p : Nat} {b : Byte} (h : s.byteAt p = some b) :
    s.mem.bytes p (s.n - p) = b :: s.mem.bytes (p + 1) (s.n - (p + 1)) := by
  obtain ⟨h1, h2⟩ := byteAt_eq_some.1 h
  rw [show s.n - p = (s.n - (p + 1)) + 1 by omega, Memory.bytes, h2]

theorem remaining_getElem? (s : State) (a : Nat) : s.remaining[a]? = s.byteAt (s.cur + a) := by
  rw [State.remaining, bytes_getElem?, State.byteAt]
  by_cases h : a < s.n - s.cur
  · rw [if_pos h, if_pos (by omega)]
  · rw [if_neg h, if_neg (by omega)]

theorem remaining_nil {s : State} (h : s.n ≤ s.cur) : s.remaining = [] := by
  rw [State.remaining, Nat.sub_eq_zero_of_le h]
  rfl

@[simp] theorem remaining_length (s : State) : s.remaining.length = s.n - s.cur := by simp [State.remaining]

/-- A form's decoder reads inside the stream. -/
theorem decodeForm_fits {s : State} {f : Form} {i : Instr} {rest : List Byte}
    (h : decodeForm f s.remaining = some (i, rest)) : s.cur + i.length ≤ s.n := by
  have h1 := decodeForm_length h
  have h2 := length_range i
  simp at h1
  omega

/-- If the step answers `t`, one row of R21 was taken. -/
theorem step_next_cases {s t : State} (h : step s = .next t) :
    (s.st = .scanning ∧ s.cur = s.n ∧ t = { s with st := .done }) ∨
    (s.st = .scanning ∧ s.cur < s.n ∧ t = { s with st := .dispatching }) ∨
    (∃ b f, s.st = .dispatching ∧ s.byteAt s.cur = some b ∧ classify b = some f ∧ t = s.enterDecoding f) ∨
    (∃ b, s.st = .dispatching ∧ s.byteAt s.cur = some b ∧ classify b = none ∧ t = s.raise (unsupportedOpcode b)) ∨
    (∃ f d i rest, s.st = .decoding f d ∧ decodeForm f s.remaining = some (i, rest) ∧ s.cur + i.length ≤ s.n ∧
      t = s.complete (specRecord i) (s.cur + i.length)) ∨
    (∃ f d, s.st = .decoding f d ∧ decodeForm f s.remaining = none ∧ t = s.raise unexpectedEndOfStream) := by
  unfold step at h
  split at h
  · next hst =>
    simp only [scan, State.isEmpty, decide_eq_true_eq] at h
    split at h
    · cases h; exact .inl ⟨hst, ‹_›, rfl⟩
    · split at h
      · cases h; exact .inr (.inl ⟨hst, ‹_›, rfl⟩)
      · cases h
  · next hst =>
    simp only [dispatchOpcode] at h
    split at h
    · cases h
    · next b hb =>
      split at h
      · next f hf => cases h; exact .inr (.inr (.inl ⟨b, f, hst, hb, hf, rfl⟩))
      · next hf => cases h; exact .inr (.inr (.inr (.inl ⟨b, hst, hb, hf, rfl⟩)))
  · next f d hst =>
    unfold fetchInstr at h
    cases hd : decodeForm f s.remaining with
    | none =>
      simp only [hd, Option.map_none] at h
      cases h
      exact .inr (.inr (.inr (.inr (.inr ⟨f, d, hst, hd, rfl⟩))))
    | some p =>
      obtain ⟨i, rest⟩ := p
      simp only [hd, Option.map_some] at h
      have hfit := decodeForm_fits hd
      rcases exec_next_cases h with ⟨_, h2⟩ | ⟨h1, _⟩
      · exact .inr (.inr (.inr (.inr (.inl ⟨f, d, i, rest, hst, hd, hfit, h2⟩))))
      · omega
  · cases h
  · cases h

/-- What the decoder reads at the cursor is what `Decoding` of its form fetches. -/
theorem fetchInstr_of_decode {s : State} {i : Instr} {rest : List Byte} (h : decode s.remaining = .instr i rest) :
    fetchInstr i.form s = some i := by
  obtain ⟨_, _, _, _, h⟩ := decode_eq_instr h
  simp [fetchInstr, h]

/-! ### Runs -/

@[simp] theorem run_zero (s : State) : run 0 s = .next s := rfl

theorem run_next {k : Nat} {s s' : State} (h : step s = .next s') : run (k + 1) s = run k s' := by
  have hc : core.step s = .next s' := h
  simp only [run, Host.Core.run, hc]
  rfl

/-- A run of one step more that goes on took its first step. -/
theorem run_succ_next {k : Nat} {s t : State} (h : run (k + 1) s = .next t) :
    ∃ s', step s = .next s' ∧ run k s' = .next t := by
  simp only [run, Host.Core.run] at h
  split at h
  · next s' hs' => exact ⟨s', hs', h⟩
  · cases h
  · cases h

/-- A run continued is one run. -/
theorem run_add {j : Nat} (k : Nat) {s t : State} (h : run j s = .next t) : run (j + k) s = run k t := by
  induction j generalizing s with
  | zero => cases h; rw [Nat.zero_add]
  | succ j ih =>
    obtain ⟨u, hu, h⟩ := run_succ_next h
    rw [Nat.succ_add, run_next hu, ih h]

/-- A property that holds of `s` and that every step keeps holds after any number of steps. -/
theorem run_keeps {P : State → Prop} (hstep : ∀ s t, P s → step s = .next t → P t) {k : Nat} {s t : State}
    (hs : P s) (h : run k s = .next t) : P t := by
  induction k generalizing s with
  | zero => cases h; exact hs
  | succ k ih =>
    obtain ⟨s', hs', h⟩ := run_succ_next h
    exact ih (hstep s s' hs hs') h

end Sys2Proof.Machine
end

