-- ==== Sys2Proof/Tests/Slice0.lean ====
section
/-! SUPPORT. Small tests whose expected results are the spec's own vectors (95_test_vectors.md, ids in the comments) or its
rules, and a witness for the hypotheses of every statement. -/

namespace Sys2Proof.Tests

open Sys2Proof Sys2Proof.Machine

/-- The state launched on a stream, in a given driver state at a given offset. -/
def stateAt (bytes : List Byte) (cur : Nat) (st : St) : State := { launched bytes with cur := cur, st := st }

/-- The state about to decode a stream's first instruction, of form `f`. -/
def decodingAt (f : Form) (bytes : List Byte) : State := stateAt bytes 0 (.decoding f (.start 0))

/-- What a next state shows: its records, its cursor, its status code and its error cause's code. -/
def shown (o : Host.Outcome State Fault Refusal) : Option (List Record × Nat × BitVec 3 × BitVec 2) :=
  match o with
  | .next t => some (t.out, t.cur, t.st.code, t.err.cause.code)
  | .fault _ => none
  | .refused _ => none

/-- The text of a next state's records. -/
def lines (o : Host.Outcome State Fault Refusal) : List Text :=
  match o with
  | .next t => t.out.map render
  | .fault _ => []
  | .refused _ => []

/-! ### Well-formedness: a term with no encoding is refused -/

theorem test_wf_refuses_base110_88 : (Instr.movRm8R8 0#3 (.base 0b110#3)).wf = false := by decide
theorem test_wf_refuses_base110_89 : (Instr.movRm16R16 0#3 (.base 0b110#3)).wf = false := by decide
theorem test_wf_refuses_base110_8A : (Instr.movR8Rm8 0#3 (.base 0b110#3)).wf = false := by decide
theorem test_wf_refuses_base110_8B : (Instr.movR16Rm16 0#3 (.base 0b110#3)).wf = false := by decide
theorem test_wf_accepts_base111 : (Instr.movR16Rm16 0#3 (.base 0b111#3)).wf = true := by decide

/-! ### Decoding words written out bit by bit (R49) -/

-- R80: 10001000, 01 000 111, 00000101
theorem test_decode_88 : decode [0b10001000#8, 0b01000111#8, 0b00000101#8] =
    .instr (.movRm8R8 0#3 (.baseDisp8 7#3 5#8)) [] := by decide
-- R81: 10001001, 11 011 000
theorem test_decode_89 : decode [0b10001001#8, 0b11011000#8] = .instr (.movRm16R16 3#3 (.reg 0#3)) [] := by decide
-- R82: 10001010, 00 000 000; V-RM30
theorem test_decode_8A : decode [0b10001010#8, 0b00000000#8] = .instr (.movR8Rm8 0#3 (.base 0#3)) [] := by decide
-- R83: 10001011, 00 011 110, address low byte first; V-RM40
theorem test_decode_8B : decode [0b10001011#8, 0b00011110#8, 0x34#8, 0x12#8] =
    .instr (.movR16Rm16 3#3 (.direct 0x1234#16)) [] := by decide
-- V-RM39: mod 10, rm 110 is a base, displacement low byte first
theorem test_decode_mod10 : decode [0b10001000#8, 0b10000110#8, 0x00#8, 0x80#8] =
    .instr (.movRm8R8 0#3 (.baseDisp16 6#3 0x8000#16)) [] := by decide
-- V-I4, V-I16
theorem test_decode_B3 : decode [0b10110011#8, 0xFF#8] = .instr (.movR8Imm8 3#3 0xFF#8) [] := by decide
theorem test_decode_BE : decode [0b10111110#8, 0xFF#8, 0x00#8] = .instr (.movR16Imm16 6#3 0x00FF#16) [] := by decide
-- R88 to R91
theorem test_decode_A0 : decode [0b10100000#8, 0x34#8, 0x12#8] = .instr (.movAxAddrBit0Clear 0x1234#16) [] := by decide
theorem test_decode_A1 : decode [0b10100001#8, 0x34#8, 0x12#8] = .instr (.movAxAddr 0x1234#16) [] := by decide
theorem test_decode_A2 : decode [0b10100010#8, 0xFF#8, 0xFF#8] = .instr (.movAddrAxBit0Clear 0xFFFF#16) [] := by decide
theorem test_decode_A3 : decode [0b10100011#8, 0x00#8, 0x80#8] = .instr (.movAddrAx 0x8000#16) [] := by decide
-- V-C6, V-C7, V-C16; V-RM52, V-I22
theorem test_decode_unsupported : decode [0x87#8] = .unsupported 0x87#8 ∧ decode [0x8C#8, 0xC0#8] = .unsupported 0x8C#8 := by
  decide
theorem test_decode_truncated : decode [0x8B#8, 0x1E#8, 0x34#8] = .truncated ∧ decode [0xB8#8, 0xFF#8] = .truncated := by
  decide
theorem test_encode_8B : encode (.movR16Rm16 3#3 (.direct 0x1234#16)) = [0x8B#8, 0x1E#8, 0x34#8, 0x12#8] := by decide
theorem test_tableWord_88 : decodeTableWord 8 0x88 = some (.movRm8R8 0#3 (.base 0#3)) := by decide
theorem test_tableWord_B9 : decodeTableWord 24 0x0001B9 = some (.movR16Imm16 1#3 1#16) := by decide

/-! ### One decoding step per instruction: the record, the cursor, the status -/

-- V-RM39
theorem test_step_88 : shown (step (decodingAt .movRmReg [0x88#8, 0x86#8, 0x00#8, 0x80#8])) =
    some ([{ op := .mov, dst := .mem 6#3 (-32768), src := .reg 0#3 .byte }], 4, 0#3, 0#2) := by decide
-- S3
theorem test_step_89 : shown (step (decodingAt .movRmReg [0x89#8, 0xD8#8])) =
    some ([{ op := .mov, dst := .reg 0#3 .word, src := .reg 3#3 .word }], 2, 0#3, 0#2) := by decide
-- V-RM44
theorem test_step_8A : shown (step (decodingAt .movRmReg [0x8A#8, 0x2E#8, 0xFF#8, 0x7F#8])) =
    some ([{ op := .mov, dst := .reg 5#3 .byte, src := .direct 32767 }], 4, 0#3, 0#2) := by decide
-- V-RM34
theorem test_step_8B : shown (step (decodingAt .movRmReg [0x8B#8, 0x56#8, 0xFE#8])) =
    some ([{ op := .mov, dst := .reg 2#3 .word, src := .mem 6#3 (-2) }], 3, 0#3, 0#2) := by decide
-- V-I3
theorem test_step_B2 : shown (step (decodingAt .movImmReg [0xB2#8, 0x80#8])) =
    some ([{ op := .mov, dst := .reg 2#3 .byte, src := .imm (-128) }], 2, 0#3, 0#2) := by decide
-- V-I14
theorem test_step_BC : shown (step (decodingAt .movImmReg [0xBC#8, 0x00#8, 0x80#8])) =
    some ([{ op := .mov, dst := .reg 4#3 .word, src := .imm (-32768) }], 3, 0#3, 0#2) := by decide
-- V-A4
theorem test_step_A0 : shown (step (decodingAt .movMemAcc [0xA0#8, 0xFF#8, 0xFF#8])) =
    some ([{ op := .mov, dst := .reg 0#3 .word, src := .direct 65535 }], 3, 0#3, 0#2) := by decide
-- S4
theorem test_step_A1 : shown (step (decodingAt .movMemAcc [0xA1#8, 0x34#8, 0x12#8])) =
    some ([{ op := .mov, dst := .reg 0#3 .word, src := .direct 4660 }], 3, 0#3, 0#2) := by decide
-- V-A5
theorem test_step_A2 : shown (step (decodingAt .movAccMem [0xA2#8, 0xFF#8, 0xFF#8])) =
    some ([{ op := .mov, dst := .direct 65535, src := .reg 0#3 .word }], 3, 0#3, 0#2) := by decide
-- V-A6
theorem test_step_A3 : shown (step (decodingAt .movAccMem [0xA3#8, 0x00#8, 0x80#8])) =
    some ([{ op := .mov, dst := .direct 32768, src := .reg 0#3 .word }], 3, 0#3, 0#2) := by decide
-- S5: no record, the cursor at the start, UnexpectedEndOfStream
theorem test_step_truncated : shown (step (decodingAt .movRmReg [0x89#8])) = some ([], 0, 4#3, 2#2) := by decide
-- V-C12
theorem test_step_unsupported : shown (step (stateAt [0xC0#8] 0 .dispatching)) = some ([], 0, 4#3, 1#2) := by decide
-- P4: the empty stream is Done after one transition
theorem test_step_empty : shown (step (launched [])) = some ([], 0, 3#3, 0#2) := by decide
theorem test_fetchWord_88 : shown (step (State.reset.withFetchWord 8 0x88)) =
    some ([{ op := .mov, dst := .mem 0#3 0, src := .reg 0#3 .byte }], 2, 0#3, 0#2) := by decide

/-! ### Rendering: V-RM31, V-RM34, V-RM35, V-A2, S1 -/

theorem test_render_disp : lines (step (decodingAt .movRmReg [0x88#8, 0x47#8, 0x05#8])) =
    [['m', 'o', 'v', ' ', '[', 'b', 'x', ' ', '+', ' ', '5', ']', ',', ' ', 'a', 'l']] := by decide
theorem test_render_negative : lines (step (decodingAt .movRmReg [0x8B#8, 0x56#8, 0xFE#8])) =
    [['m', 'o', 'v', ' ', 'd', 'x', ',', ' ', '[', 'b', 'p', ' ', '+', ' ', '-', '2', ']']] := by decide
theorem test_render_zero_disp : lines (step (decodingAt .movRmReg [0x8B#8, 0x46#8, 0x00#8])) =
    [['m', 'o', 'v', ' ', 'a', 'x', ',', ' ', '[', 'b', 'p', ']']] := by decide
theorem test_render_direct : lines (step (decodingAt .movMemAcc [0xA1#8, 0x34#8, 0x12#8])) =
    [['m', 'o', 'v', ' ', 'a', 'x', ',', ' ', '[', '4', '6', '6', '0', ']']] := by decide
theorem test_render_imm : lines (step (decodingAt .movImmReg [0xB0#8, 0xFF#8])) =
    [['m', 'o', 'v', ' ', 'a', 'l', ',', ' ', '-', '1']] := by decide

/-! ### Witnesses: the hypotheses of each statement are met by a concrete state and operands -/

theorem witness_ClassifierMatchesPrefixes_bytes : (0xBF#8).toNat / 16 = 0b1011 ∧ (0x8B#8).toNat / 4 = 0b100010 ∧
    (0xA1#8).toNat / 2 = 0b1010000 ∧ (0xA3#8).toNat / 2 = 0b1010001 ∧ (0xC0#8).toNat / 16 ≠ 0b1011 ∧
    (0xC0#8).toNat / 4 ≠ 0b100010 ∧ (0xC0#8).toNat / 2 ≠ 0b1010000 ∧ (0xC0#8).toNat / 2 ≠ 0b1010001 := by decide

theorem witness_ClassifierMatchesPrefixes_state : (stateAt [0xB0#8] 0 .dispatching).st = .dispatching ∧
    (stateAt [0xB0#8] 0 .dispatching).byteAt 0 = some 0xB0#8 ∧ classify 0xB0#8 = some .movImmReg := by decide

theorem witness_UnrecognisedBytesRaise : (stateAt [0xC0#8] 0 .dispatching).st = .dispatching ∧
    (stateAt [0xC0#8] 0 .dispatching).byteAt 0 = some 0xC0#8 ∧ classify 0xC0#8 = none ∧
    classify 0x00#8 = none ∧ classify 0x87#8 = none ∧ classify 0x8C#8 = none ∧ classify 0x9F#8 = none ∧
    classify 0xA4#8 = none ∧ classify 0xAF#8 = none ∧ classify 0xFF#8 = none := by decide

theorem witness_DecodeOfEncode : (Instr.movR8Rm8 7#3 (.base 7#3)).wf = true := by decide

/-- Also the hypothesis of LengthFromFirstTwoBytes. -/
theorem witness_DecodedBytesAreTheEncoding :
    decode [0x8B#8, 0xFF#8, 0x00#8] = .instr (.movR16Rm16 7#3 (.reg 7#3)) [0x00#8] := by decide

/-- Also the hypothesis of Rm110IsBpUnlessModZero. -/
theorem witness_EveryModRMByteIsValid : classify 0x88#8 = some .movRmReg ∧ classify 0x8B#8 = some .movRmReg := by decide

theorem witness_DirectionBitSwapsOperands :
    decode (0x89#8 :: [0xD8#8]) = .instr (.movRm16R16 3#3 (.reg 0#3)) [] ∧
    (launched [0x89#8, 0xD8#8]).cur + (Instr.movRm16R16 3#3 (.reg 0#3)).length ≤ (launched [0x89#8, 0xD8#8]).n := by decide

/-- Rows 1 and 2 of R21, and the end and the opcode clauses of ErrorPriority. -/
theorem witness_DriverTransitions_scanning :
    ((launched []).st = .scanning ∧ (launched []).cur = (launched []).n) ∧
    ((launched [0x00#8]).st = .scanning ∧ (launched [0x00#8]).cur < (launched [0x00#8]).n) ∧
    (launched [0x00#8]).byteAt 0 = some 0x00#8 ∧ classify 0x00#8 = none := by decide

/-- Rows 5 and 6 of R21: the last byte of the stream is the instruction's, and one byte is missing. Also the hypotheses of
DecodingRunsThePseudocode. -/
theorem witness_DriverTransitions_decoding :
    (decodingAt .movImmReg [0xB0#8, 0xFF#8]).st = .decoding .movImmReg (.start 0) ∧
    decodeForm .movImmReg (decodingAt .movImmReg [0xB0#8, 0xFF#8]).remaining = some (.movR8Imm8 0#3 0xFF#8, []) ∧
    decodeForm .movImmReg (decodingAt .movImmReg [0xB0#8]).remaining = none := by decide

theorem witness_DriverTransitions_terminal : (stateAt [] 0 .done).st = .done ∧ (stateAt [0x00#8] 0 .error).st = .error := by
  decide

theorem witness_StepRunsDecodedInstruction :
    decode (launched [0xB0#8, 0xFF#8]).remaining = .instr (.movR8Imm8 0#3 0xFF#8) [] ∧
    decode (decodingAt .movImmReg [0xB0#8, 0xFF#8]).remaining = .instr (.movR8Imm8 0#3 0xFF#8) [] ∧
    (decodingAt .movImmReg [0xB0#8, 0xFF#8]).st = .decoding (Instr.movR8Imm8 0#3 0xFF#8).form (.start 0) := by decide

theorem witness_ErrorPriority_truncated : (launched [0x89#8]).st = .scanning ∧
    decode (launched [0x89#8]).remaining = .truncated := by decide

/-- Each case of R94 one byte short, and its complement with no byte to spare. -/
theorem witness_EndOfStreamExactlyWhenTruncated :
    (decodingAt .movImmReg [0xB8#8, 0xFF#8]).byteAt 0 = some 0xB8#8 ∧ classify 0xB8#8 = some .movImmReg ∧
    (decodingAt .movMemAcc [0xA1#8, 0x34#8]).byteAt 0 = some 0xA1#8 ∧ classify 0xA1#8 = some .movMemAcc ∧
    (decodingAt .movAccMem [0xA3#8, 0x34#8]).byteAt 0 = some 0xA3#8 ∧ classify 0xA3#8 = some .movAccMem ∧
    (decodingAt .movRmReg [0x8B#8, 0x80#8, 0xFF#8]).byteAt 0 = some 0x8B#8 ∧ classify 0x8B#8 = some .movRmReg ∧
    instrLen 0x8B#8 0x80#8 = some 4 ∧ instrLen 0xB8#8 0xFF#8 = some 3 := by decide

/-- The five clauses: `mod = 11`, `00` with a base, `00` with `rm = 110`, `01`, `10`. -/
theorem witness_ModRMSelectsOperands :
    (decodingAt .movRmReg [0x8B#8, 0xC7#8]).byteAt 1 = some 0xC7#8 ∧ (0xC7#8).toNat / 64 = 0b11 ∧
    (decodingAt .movRmReg [0x8B#8, 0x07#8]).byteAt 1 = some 0x07#8 ∧ (0x07#8).toNat / 64 = 0b00 ∧
    (7#3).toNat = (0x07#8).toNat % 8 ∧ 7#3 ≠ 0b110#3 ∧
    (decodingAt .movRmReg [0x8B#8, 0x06#8, 0x00#8, 0x80#8]).byteAt 3 = some 0x80#8 ∧ (0x06#8).toNat / 64 = 0b00 ∧
    (0b110#3).toNat = (0x06#8).toNat % 8 ∧
    (decodingAt .movRmReg [0x8B#8, 0x46#8, 0x80#8]).byteAt 2 = some 0x80#8 ∧ (0x46#8).toNat / 64 = 0b01 ∧
    (decodingAt .movRmReg [0x8B#8, 0x86#8, 0xFF#8, 0x7F#8]).byteAt 3 = some 0x7F#8 ∧ (0x86#8).toNat / 64 = 0b10 ∧
    (decodingAt .movRmReg [0x8B#8, 0xC7#8]).byteAt 0 = some 0x8B#8 ∧ (0#3).toNat = (0xC7#8).toNat / 8 % 8 := by decide

theorem witness_ImmediateBytesDecode :
    (decodingAt .movImmReg [0xB7#8, 0x80#8]).byteAt 0 = some 0xB7#8 ∧ (0xB7#8).toNat / 8 % 2 = 0 ∧
    (7#3).toNat = (0xB7#8).toNat % 8 ∧ (decodingAt .movImmReg [0xB7#8, 0x80#8]).byteAt 1 = some 0x80#8 ∧
    (decodingAt .movImmReg [0xBF#8, 0x00#8, 0x80#8]).byteAt 2 = some 0x80#8 ∧ (0xBF#8).toNat / 8 % 2 = 1 ∧
    (decodingAt .movImmReg [0xBF#8, 0x00#8]).n - (decodingAt .movImmReg [0xBF#8, 0x00#8]).cur < 2 + (0xBF#8).toNat / 8 % 2 ∧
    (decodingAt .movImmReg [0xB7#8]).n - (decodingAt .movImmReg [0xB7#8]).cur < 2 + (0xB7#8).toNat / 8 % 2 := by decide

theorem witness_AccumulatorBytesDecode :
    (decodingAt .movMemAcc [0xA0#8, 0xFF#8, 0xFF#8]).byteAt 2 = some 0xFF#8 ∧
    (decodingAt .movAccMem [0xA3#8, 0x00#8, 0x80#8]).byteAt 2 = some 0x80#8 ∧
    (decodingAt .movAccMem [0xA3#8, 0x00#8]).n - (decodingAt .movAccMem [0xA3#8, 0x00#8]).cur < 3 := by decide

/-- Completion and truncation of the register/memory instructions: no byte to spare, and one short. -/
theorem witness_RegMemCompletes :
    (launched [0x89#8, 0xD8#8]).cur + (2 + (RmForm.reg 0#3).tailLength) ≤ (launched [0x89#8, 0xD8#8]).n ∧
    (launched [0x89#8, 0x87#8, 0xFF#8]).n < (launched [0x89#8, 0x87#8, 0xFF#8]).cur +
      (2 + (RmForm.baseDisp16 7#3 0x7FFF#16).tailLength) := by decide

theorem witness_ImmediateCompletes : (launched [0xB0#8, 0xFF#8]).cur + 2 ≤ (launched [0xB0#8, 0xFF#8]).n ∧
    (launched [0xB8#8, 0x00#8, 0x01#8]).cur + 3 ≤ (launched [0xB8#8, 0x00#8, 0x01#8]).n ∧
    (launched [0xB0#8]).n < (launched [0xB0#8]).cur + 2 ∧
    (launched [0xB8#8, 0xFF#8]).n < (launched [0xB8#8, 0xFF#8]).cur + 3 := by decide

theorem witness_AccumulatorCompletes : (launched [0xA1#8, 0x34#8, 0x12#8]).cur + 3 ≤ (launched [0xA1#8, 0x34#8, 0x12#8]).n ∧
    (launched [0xA1#8, 0x34#8]).n < (launched [0xA1#8, 0x34#8]).cur + 3 := by decide

/-- The frame's two cases: a completed and a failing instruction. -/
theorem witness_FrameOfEveryInstruction :
    (∃ t, exec (.movAddrAx 0x1234#16) (launched [0xA3#8, 0x34#8, 0x12#8]) = .next t ∧ t.st = .scanning) ∧
    ∃ t, exec (.movAddrAx 0x1234#16) (launched [0xA3#8, 0x34#8]) = .next t ∧ t.st = .error :=
  ⟨⟨_, rfl, rfl⟩, _, rfl, rfl⟩

/-- Also the hypotheses of CursorMonotoneAndBounded. -/
theorem witness_StreamReadsAreStable : (launched [0xB0#8, 0xFF#8]).cur ≤ (launched [0xB0#8, 0xFF#8]).n ∧
    ∃ t, run 3 (launched [0xB0#8, 0xFF#8]) = .next t :=
  ⟨by decide, _, rfl⟩

/-- Two streams that agree on the instruction's bytes and differ after them. -/
theorem witness_NoReadAhead :
    (stateAt [0xB0#8, 0x01#8] 0 .dispatching).byteAt 0 = some 0xB0#8 ∧
    (stateAt [0xB0#8, 0x02#8] 0 .dispatching).byteAt 0 = some 0xB0#8 ∧
    decodeForm .movImmReg (decodingAt .movImmReg [0xB0#8, 0xFF#8]).remaining = some (.movR8Imm8 0#3 0xFF#8, []) ∧
    (∀ a, 0 ≤ a → a < 2 → (decodingAt .movImmReg [0xB0#8, 0xFF#8, 0x89#8]).byteAt a =
      (decodingAt .movImmReg [0xB0#8, 0xFF#8]).byteAt a) := by
  refine ⟨by decide, by decide, by decide, ?_⟩
  intro a _ h
  rcases (show a = 0 ∨ a = 1 by omega) with rfl | rfl <;> decide

/-- A step that completes, with its record: the hypotheses of RecordAppendedOnlyOnCompletion, CursorWrittenOnlyOnCompletion,
RecordWidths and EmittedOperandsInRange. -/
theorem witness_completing_step : ∃ t, step (decodingAt .movImmReg [0xB0#8, 0x80#8]) = .next t ∧
    t.out = (decodingAt .movImmReg [0xB0#8, 0x80#8]).out ++ [{ op := .mov, dst := .reg 0#3 .byte, src := .imm (-128) }] ∧
    (decodingAt .movImmReg [0xB0#8, 0x80#8]).byteAt 0 = some 0xB0#8 :=
  ⟨_, rfl, by decide, by decide⟩

/-- The register/memory and accumulator clauses of RecordWidths. -/
theorem witness_RecordWidths_forms :
    (∃ t, step (decodingAt .movRmReg [0x88#8, 0xC4#8]) = .next t ∧
      t.out = [{ op := .mov, dst := .reg 4#3 .byte, src := .reg 0#3 .byte }]) ∧
    (∃ t, step (decodingAt .movMemAcc [0xA0#8, 0x00#8, 0x00#8]) = .next t ∧
      t.out = [{ op := .mov, dst := .reg 0#3 .word, src := .direct 0 }]) ∧
    ∃ t, step (decodingAt .movAccMem [0xA2#8, 0x00#8, 0x00#8]) = .next t ∧
      t.out = [{ op := .mov, dst := .direct 0, src := .reg 0#3 .word }] :=
  ⟨⟨_, rfl, by decide⟩, ⟨_, rfl, by decide⟩, _, rfl, by decide⟩

theorem witness_ErrorEntry : (∃ t, step (stateAt [0xC0#8] 0 .dispatching) = .next t ∧ t.st = .error) ∧
    ∃ t, step (decodingAt .movRmReg [0x89#8]) = .next t ∧ t.st = .error :=
  ⟨⟨_, rfl, rfl⟩, _, rfl, rfl⟩

theorem witness_LaunchValues : (∃ t, launch [0xB0#8] State.reset = .next t) ∧ (stateAt [] 0 .done).st = .done ∧
    (stateAt [0xC0#8] 0 .error).st = .error :=
  ⟨⟨_, rfl⟩, rfl, rfl⟩

theorem witness_NoLaunchDuringRun : stateAt [0xB0#8] 0 .dispatching ≠ State.reset ∧
    (stateAt [0xB0#8] 0 .dispatching).st ≠ .done ∧ (stateAt [0xB0#8] 0 .dispatching).st ≠ .error := by decide

/-- A state inside a run that meets the invariant and steps: StepKeepsInvariant, OnlyTerminalStatesStop. -/
theorem witness_StepKeepsInvariant : (decodingAt .movImmReg [0xB0#8, 0xFF#8]).Inv ∧
    ∃ t, step (decodingAt .movImmReg [0xB0#8, 0xFF#8]) = .next t :=
  ⟨{ stream := by refine ⟨by decide, ?_⟩; decide
     status := ⟨by decide, by decide, 0xB0#8, by decide, by decide⟩
     err := ⟨by decide, by decide, by decide, by decide⟩
     out := ⟨[], by simp, by decide, by decide⟩ }, _, rfl⟩

/-- The three kinds of ended run: the hypotheses of OutputIsTheDecodedPrefix and of
ObservationOfEndedRun. -/
theorem witness_OutputIsTheDecodedPrefix : (∃ s, Reaches [0xB0#8, 0xFF#8] 4 s ∧ s.st = .done) ∧
    (∃ s, Reaches [0xC0#8] 2 s ∧ s.st = .error ∧ s.err.cause = .unsupportedOpcode) ∧
    ∃ s, Reaches [0x89#8] 3 s ∧ s.st = .error ∧ s.err.cause = .unexpectedEndOfStream :=
  ⟨⟨_, rfl, rfl⟩, ⟨_, rfl, rfl, rfl⟩, _, rfl, rfl, rfl⟩

theorem witness_EncodedStreamDecodesWhole : ∀ i ∈ [Instr.movAddrAx 0#16, .movR8Imm8 0#3 0xB0#8], i.wf = true := by decide

/-- A stream that suits every cursor width is the empty one. -/
theorem witness_CursorRegisterNeverWraps : (stateAt [] 0 .done).Inv ∧ Config.streamFits (stateAt [] 0 .done).n :=
  ⟨{ stream := by refine ⟨by decide, ?_⟩; decide
     status := ⟨by decide, rfl⟩
     err := ⟨by decide, by decide, by decide, by decide⟩
     out := ⟨[], by simp, by decide, by decide⟩ }, Nat.zero_le _⟩

theorem witness_ConsumeIsAllOrNothing : (launched [0xB8#8, 0xFF#8]).n < (DecodeRegs.start 1).p + 2 ∧
    (DecodeRegs.start 1).p + 1 ≤ (launched [0xB8#8, 0xFF#8]).n := by decide

theorem witness_FetchWordIsRunNext : State.reset.mem.wf = true ∧
    decodeTableWord 8 0xA3 = some (.movAddrAx 0#16) := by decide

/-- Two driver states of equal code and form field that differ, so that the second case of StatusCodes is met. -/
theorem witness_StatusCodes : (St.decoding .movImmReg (.start 0)).code = (St.decoding .movImmReg (.start 1)).code ∧
    (St.decoding .movImmReg (.start 0)).formField = (St.decoding .movImmReg (.start 1)).formField ∧
    St.decoding .movImmReg (.start 0) ≠ St.decoding .movImmReg (.start 1) := by decide

theorem witness_RenderLineAndMemory : (-1 : Int) ≠ 0 := by decide

theorem witness_DecimalIsShortest : (decU 0).head? = some '0' ∧ (0 : Int) ≤ 0 ∧ (-32768 : Int) < 0 := by decide

theorem witness_RegisterPairsRender : (launched [0x89#8, 0xD8#8]).cur + 2 ≤ (launched [0x89#8, 0xD8#8]).n := by decide

end Sys2Proof.Tests
end

section
/-! SUPPORT. Each row of R21 as an equation of `step`, the converse of `step_next_cases`, and the model's two ends of a
decode as the updates the statements name. -/

namespace Sys2Proof.Machine

/-! ### The model's updates in the statements' words -/

theorem raise_unsupportedOpcode (b : Byte) (s : State) :
    s.raise (unsupportedOpcode b) = s.afterError .unsupportedOpcode b := rfl

theorem raise_unexpectedEndOfStream (s : State) :
    s.raise unexpectedEndOfStream = s.afterError .unexpectedEndOfStream 0#8 := rfl

theorem complete_advance (s : State) (L : Nat) (r : Record) : s.complete r (s.cur + L) = s.afterRecord L r := rfl

/-! ### Fetching and executing -/

theorem fetchInstr_of_decodeForm {s : State} {f : Form} {i : Instr} {rest : List Byte}
    (h : decodeForm f s.remaining = some (i, rest)) : fetchInstr f s = some i := by
  simp [fetchInstr, h]

theorem fetchInstr_eq_none {s : State} {f : Form} : fetchInstr f s = none ↔ decodeForm f s.remaining = none := by
  simp [fetchInstr]

/-- With all its bytes in the stream, an instruction completes. -/
theorem exec_of_fits {i : Instr} {s : State} (h : s.cur + i.length ≤ s.n) :
    exec i s = .next (s.afterRecord i.length (specRecord i)) := by
  rw [exec_eq_decoded, decoded, if_pos h, complete_advance]

/-! ### The rows of R21 -/

theorem step_scanning_atEnd {s : State} (hst : s.st = .scanning) (hc : s.cur = s.n) :
    step s = .next { s with st := .done } := by
  simp [step, hst, scan, State.isEmpty, hc]

theorem step_scanning_beforeEnd {s : State} (hst : s.st = .scanning) (hc : s.cur < s.n) :
    step s = .next { s with st := .dispatching } := by
  simp [step, hst, scan, State.isEmpty, hc, Nat.ne_of_lt hc]

theorem step_dispatching_form {s : State} {b : Byte} {f : Form} (hst : s.st = .dispatching)
    (hb : s.byteAt s.cur = some b) (hf : classify b = some f) : step s = .next (s.enterDecoding f) := by
  simp [step, hst, dispatchOpcode, State.peek, hb, hf]

theorem step_dispatching_noForm {s : State} {b : Byte} (hst : s.st = .dispatching)
    (hb : s.byteAt s.cur = some b) (hf : classify b = none) :
    step s = .next (s.afterError .unsupportedOpcode b) := by
  simp [step, hst, dispatchOpcode, State.peek, hb, hf, raise_unsupportedOpcode]

/-- `Decoding(f)` runs the meaning of the instruction its decoder reads. -/
theorem step_decoding_exec {s : State} {f : Form} {d : DecodeRegs} {i : Instr} (hst : s.st = .decoding f d)
    (hi : fetchInstr f s = some i) : step s = exec i s := by
  simp [step, hst, hi]

theorem step_decoding_complete {s : State} {f : Form} {d : DecodeRegs} {i : Instr} {rest : List Byte}
    (hst : s.st = .decoding f d) (hi : decodeForm f s.remaining = some (i, rest)) :
    step s = .next (s.afterRecord i.length (specRecord i)) := by
  rw [step_decoding_exec hst (fetchInstr_of_decodeForm hi), exec_of_fits (decodeForm_fits hi)]

theorem step_decoding_truncated {s : State} {f : Form} {d : DecodeRegs} (hst : s.st = .decoding f d)
    (hi : decodeForm f s.remaining = none) : step s = .next (s.afterError .unexpectedEndOfStream 0#8) := by
  simp [step, hst, fetchInstr_eq_none.2 hi, raise_unexpectedEndOfStream]

theorem step_done {s : State} (hst : s.st = .done) : step s = .fault .stuckInDone := by simp [step, hst]

theorem step_error {s : State} (hst : s.st = .error) : step s = .fault .stuckInError := by simp [step, hst]

end Sys2Proof.Machine
end

section
/-! The statements of 10_state.md. -/

namespace Sys2Proof.Proofs

open Sys2Proof Sys2Proof.Machine

/-- Settles O11: each row is the equation of `step` for it; `Decoding(f)` begins with `DecodeRegs.start`, and the byte
beside `UnexpectedEndOfStream` is 0. -/
theorem driverTransitions : Obligations.DriverTransitions := by
  intro s
  refine ⟨step_scanning_atEnd, step_scanning_beforeEnd, ?form, fun _ => step_dispatching_noForm,
    fun _ _ _ _ => step_decoding_complete, ?truncated, ?done, ?error⟩
  case form => exact fun b f hst hb hf => ⟨.start s.cur, step_dispatching_form hst hb hf⟩
  case truncated => exact fun f d hst hi => ⟨0#8, step_decoding_truncated hst hi⟩
  case done => intro hst t; simp [step_done hst]
  case error => intro hst t; simp [step_error hst]

/-- Settles O27, by the rows of R21: only the completing row of `Decoding(f)` touches the output, and it leads to
`Scanning`. -/
theorem recordAppendedOnlyOnCompletion : Obligations.RecordAppendedOnlyOnCompletion := by
  intro s t h
  obtain ⟨-, -, rfl⟩ | ⟨-, -, rfl⟩ | ⟨_, _, -, -, -, rfl⟩ | ⟨_, -, -, -, rfl⟩ |
    ⟨f, d, i, rest, hst, hi, hfit, rfl⟩ | ⟨_, _, -, -, rfl⟩ := step_next_cases h
  · exact ⟨.inl rfl, fun _ => rfl⟩
  · exact ⟨.inl rfl, fun _ => rfl⟩
  · exact ⟨.inl rfl, fun _ => rfl⟩
  · exact ⟨.inl rfl, fun _ => rfl⟩
  · exact ⟨.inr ⟨f, d, i, rest, hst, hi, hfit, rfl, rfl, rfl⟩, fun herr => by simp at herr⟩
  · exact ⟨.inl rfl, fun _ => rfl⟩

/-- Settles O47: the table is sixteen closed values of `regName`, compared with R15's row by row. -/
theorem registerNameTable : Obligations.RegisterNameTable := by
  constructor
  · decide
  · decide

end Sys2Proof.Proofs
end

section
/-! SUPPORT. What a step leaves unchanged of the stream (R29), and how little of it a decoder reads: an answer rests on the
instruction's own bytes alone (R43). -/

namespace Sys2Proof

/-- What follows the displacement or address bytes has no part in the r/m operand. -/
theorem decodeRm_reads_prefix {mod : BitVec 2} {rm : RegIx} {bs rest : List Byte} {x : RmForm}
    (h : decodeRm mod rm bs = some (x, rest)) :
    ∃ pre, bs = pre ++ rest ∧ ∀ tl, decodeRm mod rm (pre ++ tl) = some (x, tl) := by
  unfold decodeRm at h ⊢
  split at h
  · next hreg => cases h; exact ⟨[], rfl, fun _ => by simp [hreg]⟩
  · next hreg =>
    split at h
    · next hbase =>
      split at h
      · next hdirect => split at h <;> cases h; next lo hi => exact ⟨[lo, hi], rfl, fun _ => by simp [hbase, hdirect]⟩
      · next hdirect => cases h; exact ⟨[], rfl, fun _ => by simp [hbase, hdirect]⟩
    · next hbase =>
      split at h
      · next hdisp8 => split at h <;> cases h; next d8 => exact ⟨[d8], rfl, fun _ => by simp [hdisp8]⟩
      · next hdisp8 =>
        split at h <;> cases h; next lo hi => exact ⟨[lo, hi], rfl, fun _ => by simp [hreg, hbase, hdisp8]⟩

/-- A form's decoder reads a prefix of the bytes and answers the same instruction whatever follows that prefix. -/
theorem decodeForm_reads_prefix {f : Form} {bs rest : List Byte} {i : Instr} (h : decodeForm f bs = some (i, rest)) :
    ∃ pre, bs = pre ++ rest ∧ ∀ tl, decodeForm f (pre ++ tl) = some (i, tl) := by
  cases f with
  | movRmReg =>
    simp only [decodeForm, decodeRegMem] at h
    split at h
    · next b0 m bs =>
      split at h <;> cases h
      next rm hrm =>
      obtain ⟨pre, rfl, hpre⟩ := decodeRm_reads_prefix hrm
      exact ⟨b0 :: m :: pre, rfl, fun tl => by simp [decodeForm, decodeRegMem, hpre tl]⟩
    · cases h
  | movImmReg =>
    simp only [decodeForm, decodeImm] at h
    split at h
    · next b0 bs =>
      split at h <;> cases h
      · next b hw => exact ⟨[b0, b], rfl, fun tl => by simp [decodeForm, decodeImm, hw]⟩
      · next lo hi hw => exact ⟨[b0, lo, hi], rfl, fun tl => by simp [decodeForm, decodeImm, hw]⟩
    · cases h
  | movMemAcc =>
    simp only [decodeForm, decodeAcc] at h
    split at h <;> cases h
    next b0 lo hi => exact ⟨[b0, lo, hi], rfl, fun _ => rfl⟩
  | movAccMem =>
    simp only [decodeForm, decodeAcc] at h
    split at h <;> cases h
    next b0 lo hi => exact ⟨[b0, lo, hi], rfl, fun _ => rfl⟩

namespace Machine

/-- A stream that holds the same bytes at the instruction's offsets holds the same instruction there. -/
theorem decodeForm_remaining_congr {s s' : State} {f : Form} {i : Instr} {rest : List Byte} (hcur : s'.cur = s.cur)
    (h : decodeForm f s.remaining = some (i, rest))
    (hb : ∀ a, s.cur ≤ a → a < s.cur + i.length → s'.byteAt a = s.byteAt a) :
    ∃ rest', decodeForm f s'.remaining = some (i, rest') := by
  obtain ⟨pre, hpre, hread⟩ := decodeForm_reads_prefix h
  have hlen : pre.length = i.length := by
    have := decodeForm_length h
    rw [hpre, List.length_append] at this
    omega
  have hprefix : pre <+: s'.remaining := by
    refine List.prefix_iff_getElem?.2 fun k hk => ?_
    calc s'.remaining[k]? = s'.byteAt (s.cur + k) := by rw [remaining_getElem?, hcur]
      _ = s.byteAt (s.cur + k) := hb _ (by omega) (by omega)
      _ = (pre ++ rest)[k]? := by rw [← remaining_getElem?, hpre]
      _ = some pre[k] := by rw [List.getElem?_append_left hk, List.getElem?_eq_getElem hk]
  obtain ⟨rest', hrest'⟩ := hprefix
  exact ⟨rest', hrest' ▸ hread rest'⟩

/-- The block stores nothing: no row of R21 writes the stream or its length. -/
theorem step_keeps_stream {s t : State} (h : step s = .next t) : t.mem = s.mem ∧ t.n = s.n := by
  obtain ⟨-, -, rfl⟩ | ⟨-, -, rfl⟩ | ⟨_, _, -, -, -, rfl⟩ | ⟨_, -, -, -, rfl⟩ | ⟨_, _, _, _, -, -, -, rfl⟩ |
    ⟨_, _, -, -, rfl⟩ := step_next_cases h
  all_goals exact ⟨rfl, rfl⟩

theorem step_byteAt {s t : State} (h : step s = .next t) (a : Nat) : t.byteAt a = s.byteAt a :=
  have ⟨hmem, hn⟩ := step_keeps_stream h
  byteAt_congr hmem hn a

end Machine

end Sys2Proof
end

section
/-! The statements of 20_memory.md. -/

namespace Sys2Proof.Proofs

open Sys2Proof Sys2Proof.Machine

/-- Settles O25, by induction on the steps: each one keeps what the offset reads as. -/
theorem streamReadsAreStable : Obligations.StreamReadsAreStable := by
  intro k s t a h
  exact run_keeps (P := fun u => u.byteAt a = s.byteAt a) (fun u v hu hstep => (step_byteAt hstep a).trans hu) rfl h

/-- Settles O26: both states take the same row of R21, because the classifier gets the same byte and the form's decoder
the same prefix. -/
theorem noReadAhead : Obligations.NoReadAhead := by
  intro s s' hcur hst herr hout
  constructor
  · intro b hdisp hb hb'
    rw [← hcur] at hb'
    have hdisp' := hst.trans hdisp
    cases hf : classify b with
    | some f =>
      exact ⟨_, _, step_dispatching_form hdisp hb hf, step_dispatching_form hdisp' hb' hf,
        hcur, by rw [enterDecoding_st, enterDecoding_st, hcur], herr, hout⟩
    | none =>
      exact ⟨_, _, step_dispatching_noForm hdisp hb hf, step_dispatching_noForm hdisp' hb' hf,
        hcur, rfl, rfl, hout⟩
  · intro f d i rest hdec hi hbytes
    obtain ⟨rest', hi'⟩ := decodeForm_remaining_congr hcur hi hbytes
    exact ⟨_, _, step_decoding_complete hdec hi, step_decoding_complete (hst.trans hdec) hi',
      rfl, congrArg (· + i.length) hcur, rfl, herr, congrArg (· ++ [specRecord i]) hout⟩

end Sys2Proof.Proofs
end

section
/-! SUPPORT. The classifier, the r/m operand and the immediate form said in the numbers of their bytes (rules R51, R53, R62,
R66), and the bytes at the cursor as the decoder's input. -/

namespace Sys2Proof

/-! ### The classifier (R53) -/

/-- A test on a byte's bits from `start` up to its top bit is a test on the quotient of its value. -/
theorem topBits_eq_iff {start len : Nat} (b : Byte) (v : BitVec len) (hlen : start + len = 8) :
    b.extractLsb' start len = v ↔ b.toNat / 2 ^ start = v.toNat := by
  have hq : b.toNat / 2 ^ start < 2 ^ len := by
    rw [Nat.div_lt_iff_lt_mul (by positivity), ← pow_add, Nat.add_comm, hlen]
    exact b.isLt
  rw [← BitVec.toNat_inj, BitVec.extractLsb'_toNat, Nat.shiftRight_eq_div_pow, Nat.mod_eq_of_lt hq]

/-- The four tests on the byte's value, in the order of R53. -/
theorem classify_by_value (b : Byte) : classify b =
    if b.toNat / 16 = 0b1011 then some .movImmReg
    else if b.toNat / 4 = 0b100010 then some .movRmReg
    else if b.toNat / 2 = 0b1010000 then some .movMemAcc
    else if b.toNat / 2 = 0b1010001 then some .movAccMem
    else none := by
  unfold classify
  simp only [topBits_eq_iff b _ (show 4 + 4 = 8 from rfl), topBits_eq_iff b _ (show 2 + 6 = 8 from rfl),
    topBits_eq_iff b _ (show 1 + 7 = 8 from rfl)]
  rfl

/-! No value passes two of the tests, so each form has its own test as its condition, whatever the order. -/

theorem classify_movImmReg_iff {b : Byte} : classify b = some .movImmReg ↔ b.toNat / 16 = 0b1011 := by
  rw [classify_by_value]
  split_ifs <;> simp <;> omega

theorem classify_movRmReg_iff {b : Byte} : classify b = some .movRmReg ↔ b.toNat / 4 = 0b100010 := by
  rw [classify_by_value]
  split_ifs <;> simp <;> omega

theorem classify_movMemAcc_iff {b : Byte} : classify b = some .movMemAcc ↔ b.toNat / 2 = 0b1010000 := by
  rw [classify_by_value]
  split_ifs <;> simp <;> omega

theorem classify_movAccMem_iff {b : Byte} : classify b = some .movAccMem ↔ b.toNat / 2 = 0b1010001 := by
  rw [classify_by_value]
  split_ifs <;> simp <;> omega

theorem classify_none_iff {b : Byte} : classify b = none ↔
    b.toNat / 16 ≠ 0b1011 ∧ b.toNat / 4 ≠ 0b100010 ∧ b.toNat / 2 ≠ 0b1010000 ∧ b.toNat / 2 ≠ 0b1010001 := by
  rw [classify_by_value]
  split_ifs <;> simp <;> omega

/-- The numbers below `n * k`, `k` at a time, for counting over all of them in short runs. -/
theorem range_mul_eq_flatMap (n k : Nat) :
    List.range (n * k) = (List.range n).flatMap (fun h => List.range' (h * k) k) := by
  induction n with
  | zero => simp
  | succ n ih =>
    rw [List.range_succ, List.flatMap_append, ← ih, Nat.succ_mul, List.range_eq_range', List.range_eq_range',
      ← List.range'_append_1]
    simp

/-! ### The decoder -/

/-- The converse of `decode_eq_instr`. -/
theorem decode_of_decodeForm {b : Byte} {tl rest : List Byte} {f : Form} {i : Instr} (hf : classify b = some f)
    (hi : decodeForm f (b :: tl) = some (i, rest)) : decode (b :: tl) = .instr i rest := by
  simp [decode, hf, hi]

/-- Every `mod` has its case in R62, and none needs more than two bytes. -/
theorem decodeRm_total (mod : BitVec 2) (rm : RegIx) (x y : Byte) (rest : List Byte) :
    ∃ p, decodeRm mod rm (x :: y :: rest) = some p := by
  unfold decodeRm
  split_ifs <;> exact ⟨_, rfl⟩

/-! ### The immediate form (R51, R66) -/

theorem immReg_toNat (b : Byte) : (immReg b).toNat = b.toNat % 8 := by
  simp [immReg, BitVec.extractLsb'_toNat]

theorem immWidth_by_value (b : Byte) : immWidth b = if b.toNat / 8 % 2 = 1 then .word else .byte := by
  simp [immWidth, BitVec.getLsbD, Nat.testBit_eq_decide_div_mod_eq]

theorem decodeForm_byteImm {b0 : Byte} (hw : immWidth b0 = .byte) (b : Byte) (rest : List Byte) :
    decodeForm .movImmReg (b0 :: b :: rest) = some (.movR8Imm8 (immReg b0) b, rest) := by
  simp [decodeForm, decodeImm, hw]

theorem decodeForm_wordImm {b0 : Byte} (hw : immWidth b0 = .word) (lo hi : Byte) (rest : List Byte) :
    decodeForm .movImmReg (b0 :: lo :: hi :: rest) = some (.movR16Imm16 (immReg b0) (joinWord lo hi), rest) := by
  simp [decodeForm, decodeImm, hw]

/-- The immediate form has a byte for its opcode, one for the low half of the immediate and `w` for its high half. -/
theorem decodeForm_imm_truncated {b0 : Byte} {tl : List Byte} (h : tl.length < 1 + b0.toNat / 8 % 2) :
    decodeForm .movImmReg (b0 :: tl) = none := by
  match tl with
  | [] => simp [decodeForm, decodeImm]
  | [_] =>
    have hword : b0.toNat / 8 % 2 = 1 := by simp only [List.length_singleton] at h; omega
    simp [decodeForm, decodeImm, immWidth_by_value, hword]
  | _ :: _ :: _ => simp only [List.length_cons] at h; omega

namespace Machine

/-! ### The bytes at the cursor -/

theorem remaining_of_byteAt {s : State} {b : Byte} (h : s.byteAt s.cur = some b) :
    s.remaining = b :: s.mem.bytes (s.cur + 1) (s.n - (s.cur + 1)) := bytes_of_byteAt h

theorem remaining_of_byteAt_two {s : State} {b b' : Byte} (h : s.byteAt s.cur = some b)
    (h' : s.byteAt (s.cur + 1) = some b') :
    s.remaining = b :: b' :: s.mem.bytes (s.cur + 2) (s.n - (s.cur + 2)) := by
  rw [remaining_of_byteAt h, bytes_of_byteAt h']

theorem remaining_of_byteAt_three {s : State} {b b' b'' : Byte} (h : s.byteAt s.cur = some b)
    (h' : s.byteAt (s.cur + 1) = some b') (h'' : s.byteAt (s.cur + 2) = some b'') :
    s.remaining = b :: b' :: b'' :: s.mem.bytes (s.cur + 3) (s.n - (s.cur + 3)) := by
  rw [remaining_of_byteAt_two h h', bytes_of_byteAt h'']

/-- A decoder whose bytes run out takes `UnexpectedEndOfStream`. -/
theorem step_takesEndOfStream {s : State} {f : Form} {d : DecodeRegs} (hst : s.st = .decoding f d)
    (hi : decodeForm f s.remaining = none) : TakesEndOfStream s (step s) :=
  ⟨_, step_decoding_truncated hst hi, rfl, rfl, rfl⟩

end Machine

end Sys2Proof
end

section
/-! The statements of 30_encoding.md. -/

namespace Sys2Proof.Proofs

open Sys2Proof Sys2Proof.Machine

/-- Settles O2: the value ranges are what the four tests leave over, the count goes through the 256 values sixteen at a
time, and the error is the refusing row of `Dispatching`. -/
theorem unrecognisedBytesRaise : Obligations.UnrecognisedBytesRaise := by
  refine ⟨fun b => ?ranges, ?count, ?raises⟩
  case ranges =>
    rw [classify_none_iff]
    omega
  case count =>
    rw [show 256 = 16 * 16 from rfl, range_mul_eq_flatMap, List.countP_flatMap]
    decide
  case raises =>
    intro s b hst hb hf
    exact ⟨_, step_dispatching_noForm hst hb hf, rfl, rfl, rfl, rfl, rfl⟩

/-- Settles O7: the two bytes after the ModRM byte are enough for every `mod` and `rm`. -/
theorem everyModRMByteIsValid : Obligations.EveryModRMByteIsValid := by
  intro b0 m x y rest hf
  obtain ⟨⟨rm, rest'⟩, hrm⟩ := decodeRm_total (modField m) (rmField m) x y rest
  have hi : decodeForm .movRmReg (b0 :: m :: x :: y :: rest) =
      some (regMemInstr (rmDirection b0) (rmWidth b0) (regField m) rm, rest') := by
    simp [decodeForm, decodeRegMem, hrm]
  exact ⟨_, rest', decode_of_decodeForm hf hi, decodeForm_form hi⟩

/-- Settles O17: bit 3 of the opcode byte picks the width, which fixes the bytes that `decodeForm` reads at the cursor. -/
theorem immediateBytesDecode : Obligations.ImmediateBytesDecode := by
  refine ⟨fun _ => classify_movImmReg_iff, fun s d b0 r hst hb0 hr => ?_⟩
  obtain rfl : r = immReg b0 := BitVec.eq_of_toNat_eq (hr.trans (immReg_toNat b0).symm)
  refine ⟨fun hw b hb => ?byte, fun hw lo hi hlo hhi => ?word, fun hshort => ?truncated⟩
  case byte =>
    have hwidth : immWidth b0 = .byte := by rw [immWidth_by_value, if_neg (by omega)]
    apply step_decoding_complete (i := .movR8Imm8 (immReg b0) b) hst
    rw [remaining_of_byteAt_two hb0 hb, decodeForm_byteImm hwidth]
  case word =>
    have hwidth : immWidth b0 = .word := by rw [immWidth_by_value, if_pos hw]
    apply step_decoding_complete (i := .movR16Imm16 (immReg b0) (joinWord lo hi)) hst
    rw [remaining_of_byteAt_three hb0 hlo hhi, decodeForm_wordImm hwidth]
  case truncated =>
    apply step_takesEndOfStream hst
    rw [remaining_of_byteAt hb0]
    apply decodeForm_imm_truncated
    rw [bytes_length]
    omega

/-- Settles O1: each of the four tests is the condition of its form, and `Decoding(f)` begins with `DecodeRegs.start`. -/
theorem classifierMatchesPrefixes : Obligations.ClassifierMatchesPrefixes := by
  refine ⟨fun b => ?tests, fun s b f hst hb hf => ⟨.start s.cur, step_dispatching_form hst hb hf⟩⟩
  case tests =>
    exact ⟨classify_movImmReg_iff.2, classify_movRmReg_iff.2, classify_movMemAcc_iff.2, classify_movAccMem_iff.2,
      fun himm hrm hload hstore => classify_none_iff.2 ⟨himm, hrm, hload, hstore⟩⟩

/-- Settles O48: the table is eight closed values of `baseText`, compared with R60's row by row. -/
theorem baseExpressionTable : Obligations.BaseExpressionTable := by
  unfold Obligations.BaseExpressionTable
  decide

/-- Settles O49: each of the three operands has its own equation of `renderOp`. -/
theorem renderRegisterAddressImmediate : Obligations.RenderRegisterAddressImmediate :=
  ⟨fun _ _ => rfl, fun _ => rfl, fun _ => rfl⟩

end Sys2Proof.Proofs
end

section
/-! SUPPORT. The truncated end of a decode, the counterpart of `exec_of_fits` (rules R28, R94). -/

namespace Sys2Proof.Machine

/-- With a byte missing, an instruction takes `UnexpectedEndOfStream`. -/
theorem exec_of_short {i : Instr} {s : State} (h : s.n < s.cur + i.length) :
    exec i s = .next (s.afterError .unexpectedEndOfStream 0#8) := by
  rw [exec_eq_decoded, decoded, if_neg (Nat.not_le.2 h), raise_unexpectedEndOfStream]

theorem exec_takesEndOfStream {i : Instr} {s : State} (h : s.n < s.cur + i.length) : TakesEndOfStream s (exec i s) :=
  ⟨_, exec_of_short h, rfl, rfl, rfl⟩

end Sys2Proof.Machine
end

section
/-! The statements of 40_mov_regmem.md. -/

namespace Sys2Proof.Proofs

open Sys2Proof Sys2Proof.Machine

/-- Settles O19: both opcodes have the length `2 + rm.tailLength` and their record in `specRecord`, and the stream holds
that many bytes at the cursor or it does not. -/
theorem registerToRmCompletes : Obligations.RegisterToRmCompletes := by
  intro s reg rm
  refine ⟨rfl, rfl, fun hfits => ⟨?byteRecord, ?wordRecord⟩, fun hshort => ⟨?byteError, ?wordError⟩⟩
  case byteRecord => exact exec_of_fits (i := .movRm8R8 reg rm) hfits
  case wordRecord => exact exec_of_fits (i := .movRm16R16 reg rm) hfits
  case byteError => exact exec_takesEndOfStream (i := .movRm8R8 reg rm) hshort
  case wordError => exact exec_takesEndOfStream (i := .movRm16R16 reg rm) hshort

/-- Settles O20: as for the storing opcodes, with the record's operands the other way round in `specRecord`. -/
theorem rmToRegisterCompletes : Obligations.RmToRegisterCompletes := by
  intro s reg rm
  refine ⟨rfl, rfl, fun hfits => ⟨?byteRecord, ?wordRecord⟩, fun hshort => ⟨?byteError, ?wordError⟩⟩
  case byteRecord => exact exec_of_fits (i := .movR8Rm8 reg rm) hfits
  case wordRecord => exact exec_of_fits (i := .movR16Rm16 reg rm) hfits
  case byteError => exact exec_takesEndOfStream (i := .movR8Rm8 reg rm) hshort
  case wordError => exact exec_takesEndOfStream (i := .movR16Rm16 reg rm) hshort

end Sys2Proof.Proofs
end

section
/-! The statements of 41_mov_imm.md. -/

namespace Sys2Proof.Proofs

open Sys2Proof Sys2Proof.Machine

/-- Settles O21: the lengths are 2 and 3, the records are those of `specRecord`, and the encoded word's two bytes join to
the immediate again. -/
theorem immediateCompletes : Obligations.ImmediateCompletes := by
  intro s r imm8 imm16
  refine ⟨rfl, ⟨lowByte imm16, highByte imm16, rfl, joinWord_low_high imm16⟩, ?byteRecord, ?wordRecord, ?byteError,
    ?wordError⟩
  case byteRecord => exact exec_of_fits (i := .movR8Imm8 r imm8)
  case wordRecord => exact exec_of_fits (i := .movR16Imm16 r imm16)
  case byteError => exact exec_takesEndOfStream (i := .movR8Imm8 r imm8)
  case wordError => exact exec_takesEndOfStream (i := .movR16Imm16 r imm16)

end Sys2Proof.Proofs
end

section
/-! SUPPORT. The accumulator forms said in their bytes: what their decoder reads and the record it leads to (rules R52, R53,
R87). -/

namespace Sys2Proof

/-! ### The opcode byte `101000tx` (R53) -/

theorem classify_movMemAcc_iff_bits {b : Byte} :
    classify b = some .movMemAcc ↔ b.toNat / 4 = 0b101000 ∧ b.toNat / 2 % 2 = 0 := by
  rw [classify_movMemAcc_iff]
  omega

theorem classify_movAccMem_iff_bits {b : Byte} :
    classify b = some .movAccMem ↔ b.toNat / 4 = 0b101000 ∧ b.toNat / 2 % 2 = 1 := by
  rw [classify_movAccMem_iff]
  omega

/-! ### The decoder (R87) -/

theorem decodeForm_memAcc (b0 lo hi : Byte) (rest : List Byte) :
    decodeForm .movMemAcc (b0 :: lo :: hi :: rest) = some (memAccInstr b0 (joinWord lo hi), rest) := rfl

theorem decodeForm_accMem (b0 lo hi : Byte) (rest : List Byte) :
    decodeForm .movAccMem (b0 :: lo :: hi :: rest) = some (accMemInstr b0 (joinWord lo hi), rest) := rfl

/-- The opcode byte and the two address bytes are all needed. -/
theorem decodeAcc_truncated (instr : Byte → Word → Instr) {bs : List Byte} (h : bs.length < 3) :
    decodeAcc instr bs = none := by
  match bs with
  | [] => rfl
  | [_] => rfl
  | [_, _] => rfl
  | _ :: _ :: _ :: _ => simp only [List.length_cons] at h; omega

theorem decodeForm_acc_truncated {f : Form} {bs : List Byte} (hf : f = .movMemAcc ∨ f = .movAccMem)
    (h : bs.length < 3) : decodeForm f bs = none := by
  obtain rfl | rfl := hf
  · exact decodeAcc_truncated memAccInstr h
  · exact decodeAcc_truncated accMemInstr h

namespace Machine

/-! ### The record: the opcode byte's bit 0 has no part in it (R52) -/

theorem specRecord_memAccInstr (b0 : Byte) (a : Word) :
    specRecord (memAccInstr b0 a) = { op := .mov, dst := .reg 0#3 .word, src := .direct a.toNat } := by
  unfold memAccInstr
  split <;> rfl

theorem specRecord_accMemInstr (b0 : Byte) (a : Word) :
    specRecord (accMemInstr b0 a) = { op := .mov, dst := .direct a.toNat, src := .reg 0#3 .word } := by
  unfold accMemInstr
  split <;> rfl

end Machine

end Sys2Proof
end

section
/-! The statements of 42_mov_acc.md. -/

namespace Sys2Proof.Proofs

open Sys2Proof Sys2Proof.Machine

/-- Settles O18: the form's decoder reads the three bytes at the cursor, the joined address has the value `lo + 256 * hi`,
and the record does not depend on the opcode byte's bit 0. -/
theorem accumulatorBytesDecode : Obligations.AccumulatorBytesDecode := by
  refine ⟨fun b0 => ⟨classify_movMemAcc_iff_bits, classify_movAccMem_iff_bits⟩, fun s d =>
    ⟨fun b0 lo hi hb0 hlo hhi => ⟨fun hst => ?load, fun hst => ?store⟩, fun hst hshort => ?truncated⟩⟩
  case load =>
    have hdec := decodeForm_memAcc b0 lo hi (s.mem.bytes (s.cur + 3) (s.n - (s.cur + 3)))
    rw [← remaining_of_byteAt_three hb0 hlo hhi] at hdec
    rw [step_decoding_complete hst hdec, memAccInstr_length, specRecord_memAccInstr, joinWord_toNat]
  case store =>
    have hdec := decodeForm_accMem b0 lo hi (s.mem.bytes (s.cur + 3) (s.n - (s.cur + 3)))
    rw [← remaining_of_byteAt_three hb0 hlo hhi] at hdec
    rw [step_decoding_complete hst hdec, accMemInstr_length, specRecord_accMemInstr, joinWord_toNat]
  case truncated =>
    have hlen : s.remaining.length < 3 := by rwa [remaining_length]
    obtain hst | hst := hst
    · exact step_takesEndOfStream hst (decodeForm_acc_truncated (.inl rfl) hlen)
    · exact step_takesEndOfStream hst (decodeForm_acc_truncated (.inr rfl) hlen)

/-- Settles O22: all four opcodes have the length 3 and their record in `specRecord`, and the address's two encoded bytes
join to it again. -/
theorem accumulatorCompletes : Obligations.AccumulatorCompletes := by
  intro s a
  refine ⟨⟨lowByte a, highByte a, joinWord_low_high a, rfl, rfl, rfl, rfl⟩, fun hfits => ?records, fun hshort => ?errors⟩
  case records =>
    exact ⟨exec_of_fits (i := .movAxAddrBit0Clear a) hfits, exec_of_fits (i := .movAxAddr a) hfits,
      exec_of_fits (i := .movAddrAxBit0Clear a) hfits, exec_of_fits (i := .movAddrAx a) hfits⟩
  case errors =>
    exact ⟨exec_takesEndOfStream (i := .movAxAddrBit0Clear a) hshort, exec_takesEndOfStream (i := .movAxAddr a) hshort,
      exec_takesEndOfStream (i := .movAddrAxBit0Clear a) hshort, exec_takesEndOfStream (i := .movAddrAx a) hshort⟩

end Sys2Proof.Proofs
end

section
/-! SUPPORT. One equation of `decodeRm` per encoding, what each form's decoder reads inverted once, and the round trip of
the encoder and the decoder (rules R49, R62, R69, R70). -/

namespace Sys2Proof

/-! ### The r/m operand of each `mod` (R62) -/

@[simp] theorem decodeRm_reg (rm : RegIx) (bs : List Byte) : decodeRm 0b11#2 rm bs = some (.reg rm, bs) := rfl

theorem decodeRm_base {rm : RegIx} (h : rm ≠ 0b110#3) (bs : List Byte) : decodeRm 0b00#2 rm bs = some (.base rm, bs) := by
  simp [decodeRm, h]

@[simp] theorem decodeRm_direct (lo hi : Byte) (rest : List Byte) :
    decodeRm 0b00#2 0b110#3 (lo :: hi :: rest) = some (.direct (joinWord lo hi), rest) := rfl

@[simp] theorem decodeRm_baseDisp8 (rm : RegIx) (d8 : Byte) (rest : List Byte) :
    decodeRm 0b01#2 rm (d8 :: rest) = some (.baseDisp8 rm d8, rest) := rfl

@[simp] theorem decodeRm_baseDisp16 (rm : RegIx) (lo hi : Byte) (rest : List Byte) :
    decodeRm 0b10#2 rm (lo :: hi :: rest) = some (.baseDisp16 rm (joinWord lo hi), rest) := rfl

/-- The four values of `mod`, for a case split by R62's rows. -/
theorem mod_cases (mod : BitVec 2) : mod = 0b11#2 ∨ mod = 0b00#2 ∨ mod = 0b01#2 ∨ mod = 0b10#2 := by
  revert mod; decide

/-! ### What each form's decoder reads -/

/-- The opcode byte gives direction and width, the ModRM byte the rest. -/
theorem decodeForm_regMem (b0 m : Byte) (bs : List Byte) : decodeForm .movRmReg (b0 :: m :: bs) =
    (decodeRm (modField m) (rmField m) bs).map
      (Prod.map (regMemInstr (rmDirection b0) (rmWidth b0) (regField m)) id) := by
  cases h : decodeRm (modField m) (rmField m) bs <;> simp [decodeForm, decodeRegMem, Prod.map, h]

theorem decodeForm_regMem_eq_some {bs rest : List Byte} {i : Instr} (h : decodeForm .movRmReg bs = some (i, rest)) :
    ∃ b0 m tl rm, bs = b0 :: m :: tl ∧ decodeRm (modField m) (rmField m) tl = some (rm, rest) ∧
      i = regMemInstr (rmDirection b0) (rmWidth b0) (regField m) rm := by
  simp only [decodeForm, decodeRegMem] at h
  split at h
  · split at h <;> cases h
    exact ⟨_, _, _, _, rfl, ‹_›, rfl⟩
  · cases h

theorem decodeForm_imm_eq_some {bs rest : List Byte} {i : Instr} (h : decodeForm .movImmReg bs = some (i, rest)) :
    (∃ b0 b, immWidth b0 = .byte ∧ bs = b0 :: b :: rest ∧ i = .movR8Imm8 (immReg b0) b) ∨
    (∃ b0 lo hi, immWidth b0 = .word ∧ bs = b0 :: lo :: hi :: rest ∧ i = .movR16Imm16 (immReg b0) (joinWord lo hi)) := by
  simp only [decodeForm, decodeImm] at h
  split at h
  · split at h <;> cases h
    · exact .inl ⟨_, _, ‹_›, rfl, rfl⟩
    · exact .inr ⟨_, _, _, ‹_›, rfl, rfl⟩
  · cases h

theorem decodeAcc_eq_some {instr : Byte → Word → Instr} {bs rest : List Byte} {i : Instr}
    (h : decodeAcc instr bs = some (i, rest)) :
    ∃ b0 lo hi, bs = b0 :: lo :: hi :: rest ∧ i = instr b0 (joinWord lo hi) := by
  unfold decodeAcc at h
  split at h <;> cases h
  exact ⟨_, _, _, rfl, rfl⟩

/-! ### Decoding an encoding -/

/-- The ModRM byte and the bytes of a well-formed r/m operand are read back as it. -/
theorem decodeForm_encodeRm (b0 : Byte) (reg : RegIx) {rm : RmForm} (hwf : rm.wf = true) (rest : List Byte) :
    decodeForm .movRmReg (b0 :: (encodeRm reg rm ++ rest)) =
      some (regMemInstr (rmDirection b0) (rmWidth b0) reg rm, rest) := by
  cases rm with
  | reg r => simp [encodeRm, decodeForm_regMem]
  | base r =>
    have hr : r ≠ 0b110#3 := of_decide_eq_true hwf
    simp [encodeRm, decodeForm_regMem, decodeRm_base hr]
  | baseDisp8 r d => simp [encodeRm, decodeForm_regMem]
  | baseDisp16 r d => simp [encodeRm, decodeForm_regMem]
  | direct a => simp [encodeRm, decodeForm_regMem]

/-- An instruction's first byte classifies to its form. -/
theorem encode_cons (i : Instr) : ∃ b tl, encode i = b :: tl ∧ classify b = some i.form := by
  cases i with
  | movR8Imm8 r imm => exact ⟨_, _, rfl, classify_byteOpcode r⟩
  | movR16Imm16 r imm => exact ⟨_, _, rfl, classify_wordOpcode r⟩
  | _ => exact ⟨_, _, rfl, rfl⟩

theorem decodeForm_encode {i : Instr} (hwf : i.wf = true) (rest : List Byte) :
    decodeForm i.form (encode i ++ rest) = some (i, rest) := by
  cases i with
  | movRm8R8 reg rm => exact decodeForm_encodeRm 0x88#8 reg hwf rest
  | movRm16R16 reg rm => exact decodeForm_encodeRm 0x89#8 reg hwf rest
  | movR8Rm8 reg rm => exact decodeForm_encodeRm 0x8A#8 reg hwf rest
  | movR16Rm16 reg rm => exact decodeForm_encodeRm 0x8B#8 reg hwf rest
  | movR8Imm8 r imm => simp [encode, Instr.form, decodeForm_byteImm]
  | movR16Imm16 r imm => simp [encode, Instr.form, decodeForm_wordImm]
  | movAxAddrBit0Clear a => simp [encode, Instr.form, decodeForm_memAcc, memAccInstr]
  | movAxAddr a => simp [encode, Instr.form, decodeForm_memAcc, memAccInstr]
  | movAddrAxBit0Clear a => simp [encode, Instr.form, decodeForm_accMem, accMemInstr]
  | movAddrAx a => simp [encode, Instr.form, decodeForm_accMem, accMemInstr]

theorem decode_encode {i : Instr} (hwf : i.wf = true) (rest : List Byte) : decode (encode i ++ rest) = .instr i rest := by
  have hi := decodeForm_encode hwf rest
  obtain ⟨b, tl, hb, hf⟩ := encode_cons i
  rw [hb, List.cons_append] at hi ⊢
  exact decode_of_decodeForm hf hi

/-! ### Encoding what was decoded -/

@[simp] theorem regMemInstr_wf (d : Direction) (w : Width) (reg : RegIx) (rm : RmForm) :
    (regMemInstr d w reg rm).wf = rm.wf := by
  cases d <;> cases w <;> rfl

theorem encode_regMemInstr {b : Byte} (hf : classify b = some .movRmReg) (reg : RegIx) (rm : RmForm) :
    encode (regMemInstr (rmDirection b) (rmWidth b) reg rm) = b :: encodeRm reg rm := by
  have hb := regMemOpcode_of_classify b hf
  cases hd : rmDirection b <;> cases hw : rmWidth b <;> rw [hd, hw] at hb <;> subst hb <;> rfl

/-- The r/m operand read after a ModRM byte is well formed, and its encoding is the bytes it was read from. -/
theorem encodeRm_of_decodeRm {m : Byte} {bs rest : List Byte} {rm : RmForm}
    (h : decodeRm (modField m) (rmField m) bs = some (rm, rest)) :
    rm.wf = true ∧ m :: bs = encodeRm (regField m) rm ++ rest := by
  have hm := modRM_fields m
  unfold decodeRm at h
  split_ifs at h with hreg hbase hdirect hdisp8
  · cases h
    exact ⟨rfl, by simp [encodeRm, ← hreg, hm]⟩
  · split at h <;> cases h
    exact ⟨rfl, by simp [encodeRm, ← hbase, ← hdirect, hm]⟩
  · cases h
    exact ⟨decide_eq_true hdirect, by simp [encodeRm, ← hbase, hm]⟩
  · split at h <;> cases h
    exact ⟨rfl, by simp [encodeRm, ← hdisp8, hm]⟩
  · have hdisp16 : modField m = 0b10#2 := by
      obtain h11 | h00 | h01 | h10 := mod_cases (modField m)
      exacts [absurd h11 hreg, absurd h00 hbase, absurd h01 hdisp8, h10]
    split at h <;> cases h
    exact ⟨rfl, by simp [encodeRm, ← hdisp16, hm]⟩

/-- In the form of its first byte a decoder reads a well-formed instruction, from exactly the bytes of its encoding. -/
theorem encode_of_decodeForm {f : Form} {b : Byte} {tl rest : List Byte} {i : Instr} (hf : classify b = some f)
    (h : decodeForm f (b :: tl) = some (i, rest)) : i.wf = true ∧ b :: tl = encode i ++ rest := by
  cases f with
  | movRmReg =>
    obtain ⟨_, m, bs, rm, hbs, hrm, rfl⟩ := decodeForm_regMem_eq_some h
    cases hbs
    obtain ⟨hwf, henc⟩ := encodeRm_of_decodeRm hrm
    exact ⟨by simpa using hwf, by rw [encode_regMemInstr hf, List.cons_append, henc]⟩
  | movImmReg =>
    have hb := immOpcode_of_classify b hf
    obtain ⟨_, x, hw, hbs, rfl⟩ | ⟨_, lo, hi, hw, hbs, rfl⟩ := decodeForm_imm_eq_some h
    · cases hbs
      rw [hw] at hb
      exact ⟨rfl, by simp [encode, ← hb]⟩
    · cases hbs
      rw [hw] at hb
      exact ⟨rfl, by simp [encode, ← hb]⟩
  | movMemAcc =>
    obtain ⟨_, lo, hi, hbs, rfl⟩ := decodeAcc_eq_some h
    cases hbs
    obtain rfl | rfl := memAccOpcode_of_classify b hf <;> exact ⟨rfl, by simp [memAccInstr, encode]⟩
  | movAccMem =>
    obtain ⟨_, lo, hi, hbs, rfl⟩ := decodeAcc_eq_some h
    cases hbs
    obtain rfl | rfl := accMemOpcode_of_classify b hf <;> exact ⟨rfl, by simp [accMemInstr, encode]⟩

theorem encode_of_decode {bs rest : List Byte} {i : Instr} (h : decode bs = .instr i rest) :
    i.wf = true ∧ bs = encode i ++ rest := by
  obtain ⟨b, tl, rfl, hf, hi⟩ := decode_eq_instr h
  exact encode_of_decodeForm hf hi

/-! ### Lengths (R69, R70) -/

theorem encode_length (i : Instr) : (encode i).length = i.length := by
  cases i with
  | movRm8R8 reg rm => exact (Laws.EncodedLength.movRm8R8 reg rm).1
  | movRm16R16 reg rm => exact (Laws.EncodedLength.movRm16R16 reg rm).1
  | movR8Rm8 reg rm => exact (Laws.EncodedLength.movR8Rm8 reg rm).1
  | movR16Rm16 reg rm => exact (Laws.EncodedLength.movR16Rm16 reg rm).1
  | _ => rfl

/-- `InstrLen` on a register/memory opcode byte and a well-formed operand's ModRM byte. -/
theorem instrLen_encodeRm {b : Byte} (hf : classify b = some .movRmReg) (reg : RegIx) {rm : RmForm}
    (hwf : rm.wf = true) :
    ∃ b0 m tl, b :: encodeRm reg rm = b0 :: m :: tl ∧ instrLen b0 m = some (2 + rm.tailLength) := by
  cases rm with
  | base r =>
    have hr : r ≠ 0b110#3 := of_decide_eq_true hwf
    exact ⟨b, _, _, rfl, by simp [instrLen, hf, hr, RmForm.tailLength]⟩
  | _ => exact ⟨b, _, _, rfl, by simp [instrLen, hf, RmForm.tailLength]⟩

/-- The length function gives the length of a well-formed instruction on the first two bytes of its encoding. -/
theorem instrLen_encode {i : Instr} (hwf : i.wf = true) :
    ∃ b0 m tl, encode i = b0 :: m :: tl ∧ instrLen b0 m = some i.length := by
  cases i with
  | movRm8R8 reg rm => exact instrLen_encodeRm (b := 0x88#8) rfl reg hwf
  | movRm16R16 reg rm => exact instrLen_encodeRm (b := 0x89#8) rfl reg hwf
  | movR8Rm8 reg rm => exact instrLen_encodeRm (b := 0x8A#8) rfl reg hwf
  | movR16Rm16 reg rm => exact instrLen_encodeRm (b := 0x8B#8) rfl reg hwf
  | movR8Imm8 r imm => exact ⟨_, _, _, rfl, by simp [instrLen, Instr.length]⟩
  | movR16Imm16 r imm => exact ⟨_, _, _, rfl, by simp [instrLen, Instr.length]⟩
  | _ => exact ⟨_, _, _, rfl, rfl⟩

end Sys2Proof
end

section
/-! The round-trip statements of 30_encoding.md. -/

namespace Sys2Proof.Proofs

open Sys2Proof Sys2Proof.Machine

/-- Settles O4: the first byte of the encoding classifies to the instruction's form, whose decoder reads each field back. -/
theorem decodeOfEncode : Obligations.DecodeOfEncode := fun _ rest hwf => decode_encode hwf rest

/-- Settles O5: the opcode byte, the ModRM byte and the two-byte fields are each rebuilt from the fields read from them. -/
theorem decodedBytesAreTheEncoding : Obligations.DecodedBytesAreTheEncoding := fun _ _ _ h => encode_of_decode h

/-- Settles O8: the bytes read are the encoding (O5), and the length function holds on the first two bytes of one. -/
theorem lengthFromFirstTwoBytes : Obligations.LengthFromFirstTwoBytes := by
  intro bs rest i h
  obtain ⟨hwf, rfl⟩ := encode_of_decode h
  obtain ⟨b0, m, tl, henc, hlen⟩ := instrLen_encode hwf
  have hrange := length_range i
  exact ⟨b0, m, tl ++ rest, by rw [henc, List.cons_append, List.cons_append], hlen,
    by rw [List.length_append, encode_length], by omega⟩

/-- Settles O3: the tests are those of R53, no two of which one value passes; the counts go through the 256 values sixteen
at a time. -/
theorem classifierPatternsDisjoint : Obligations.ClassifierPatternsDisjoint := by
  refine ⟨fun b => ?disjoint, ?counts⟩
  case disjoint =>
    simp only [List.count_cons, List.count_nil, beq_true, decide_eq_true_eq]
    split_ifs <;> omega
  case counts =>
    rw [show 256 = 16 * 16 from rfl, range_mul_eq_flatMap]
    simp only [List.countP_flatMap]
    decide

/-- Settles O6: ten closed decodings, one per row of the opcode table. -/
theorem exampleBytesDecode : Obligations.ExampleBytesDecode := by
  unfold Obligations.ExampleBytesDecode
  decide

/-- Settles O9: the ModRM byte gives its fields back, and each `mod` has its own equation of `decodeRm`. -/
theorem rm110IsBpUnlessModZero : Obligations.Rm110IsBpUnlessModZero := by
  intro b0 reg x y rest hf
  refine ⟨decode_of_decodeForm hf ?mod11, decode_of_decodeForm hf ?mod01, decode_of_decodeForm hf ?mod10,
    decode_of_decodeForm hf ?mod00, by decide⟩
  all_goals simp [decodeForm_regMem]

end Sys2Proof.Proofs
end

section
/-! SUPPORT. The decoder's two refusals, the bytes at the cursor, and the invariant of the block row by row of R21. -/

namespace Sys2Proof

/-! ### Where the decoder answers no instruction (R92 to R94) -/

theorem decode_eq_noBytes_iff {bs : List Byte} : decode bs = .noBytes ↔ bs = [] := by
  cases bs with
  | nil => simp [decode]
  | cons c tl =>
    cases hc : classify c with
    | none => simp [decode, hc]
    | some f => cases hi : decodeForm f (c :: tl) <;> simp [decode, hc, hi]

theorem decode_eq_unsupported_iff {bs : List Byte} {b : Byte} :
    decode bs = .unsupported b ↔ ∃ tl, bs = b :: tl ∧ classify b = none := by
  cases bs with
  | nil => simp [decode]
  | cons c tl =>
    cases hc : classify c with
    | none =>
      simp only [decode, hc, Decoded.unsupported.injEq]
      exact ⟨fun h => ⟨tl, by rw [h], h ▸ hc⟩, fun ⟨_, h, _⟩ => (List.cons.inj h).1⟩
    | some f =>
      have hne : ¬∃ tl', c :: tl = b :: tl' ∧ classify b = none := fun ⟨_, h, hb⟩ => by cases h; simp [hc] at hb
      cases hi : decodeForm f (c :: tl) <;> simpa [decode, hc, hi] using hne

theorem decode_eq_truncated_iff {bs : List Byte} :
    decode bs = .truncated ↔ ∃ b tl f, bs = b :: tl ∧ classify b = some f ∧ decodeForm f bs = none := by
  cases bs with
  | nil => simp [decode]
  | cons c tl =>
    cases hc : classify c with
    | none => simp [decode, hc]
    | some f => cases hi : decodeForm f (c :: tl) <;> simp [decode, hc, hi]

namespace Machine

/-! ### The bytes at the cursor -/

theorem bytes_take (m : Memory) (p : Nat) {j k : Nat} (h : j ≤ k) : (m.bytes p k).take j = m.bytes p j := by
  obtain ⟨l, rfl⟩ := Nat.exists_eq_add_of_le h
  rw [bytes_append, List.take_left' (bytes_length m p j)]

theorem bytes_drop (m : Memory) (p j k : Nat) : (m.bytes p k).drop j = m.bytes (p + j) (k - j) := by
  by_cases h : j ≤ k
  · obtain ⟨l, rfl⟩ := Nat.exists_eq_add_of_le h
    rw [bytes_append, List.drop_left' (bytes_length m p j), Nat.add_sub_cancel_left]
  · rw [Nat.sub_eq_zero_of_le (by omega), Memory.bytes, List.drop_eq_nil_iff.2 (by simp; omega)]

theorem byteAt_of_remaining {s : State} {b : Byte} {tl : List Byte} (h : s.remaining = b :: tl) :
    s.byteAt s.cur = some b := by
  simpa [h] using (remaining_getElem? s 0).symm

/-- At a byte of a form, the decoder of that form reads what `decode` reads. -/
theorem decode_remaining_instr {s : State} {b : Byte} {f : Form} {i : Instr} {rest : List Byte}
    (hb : s.byteAt s.cur = some b) (hf : classify b = some f) (hi : decodeForm f s.remaining = some (i, rest)) :
    decode s.remaining = .instr i rest := by
  rw [remaining_of_byteAt hb] at hi ⊢
  exact decode_of_decodeForm hf hi

theorem decode_remaining_truncated {s : State} {b : Byte} {f : Form} (hb : s.byteAt s.cur = some b)
    (hf : classify b = some f) (hi : decodeForm f s.remaining = none) : decode s.remaining = .truncated :=
  decode_eq_truncated_iff.2 ⟨b, _, f, remaining_of_byteAt hb, hf, hi⟩

/-- The bytes from the cursor that an instruction was decoded from are its encoding. -/
theorem bytes_of_decode {s : State} {i : Instr} {rest : List Byte} (h : decode s.remaining = .instr i rest) :
    s.mem.bytes s.cur i.length = encode i := by
  obtain ⟨-, henc⟩ := encode_of_decode h
  have hlen : i.length ≤ s.n - s.cur := by
    rw [← remaining_length, henc, List.length_append, encode_length]
    exact Nat.le_add_right _ _
  rw [← bytes_take s.mem s.cur hlen, ← State.remaining, henc, List.take_left' (encode_length i)]

/-! ### The parts of the invariant -/

/-- Outside `Error` the error register holds its launch value. -/
theorem errInv_iff {s : State} (h : s.st ≠ .error) : s.ErrInv ↔ s.err = { cause := .none, byte := 0#8 } := by
  constructor
  · rintro ⟨hcause, hbyte, -, -⟩
    have hnone : s.err.cause = .none := not_not.1 (mt hcause.1 h)
    exact congrArg₂ ErrReg.mk hnone (hbyte (by simp [hnone]))
  · intro herr
    simp [State.ErrInv, herr, h]

theorem statusInv_decoding {s : State} {f : Form} {d : DecodeRegs} (hst : s.st = .decoding f d) (h : s.StatusInv) :
    d = .start s.cur ∧ ∃ b, s.byteAt s.cur = some b ∧ classify b = some f := by
  simp only [State.StatusInv, hst] at h
  exact h.2

theorem cur_lt_of_byteAt {s : State} {b : Byte} (h : s.byteAt s.cur = some b) : s.cur < s.n := (byteAt_eq_some.1 h).1

theorem OutInv_of_same {s t : State} (hmem : t.mem = s.mem) (hcur : t.cur = s.cur) (hout : t.out = s.out)
    (h : s.OutInv) : t.OutInv := by
  rwa [State.OutInv, hmem, hcur, hout]

theorem step_keeps_streamInv {s t : State} (hs : s.StreamInv) (h : step s = .next t) : t.StreamInv := by
  obtain ⟨hmem, hn⟩ := step_keeps_stream h
  rwa [State.StreamInv, hmem, hn]

theorem step_keeps_statusInv {s t : State} (hs : s.StatusInv) (h : step s = .next t) : t.StatusInv := by
  obtain ⟨-, hc, rfl⟩ | ⟨-, hc, rfl⟩ | ⟨b, f, -, hb, hf, rfl⟩ | ⟨b, -, hb, -, rfl⟩ | ⟨f, d, i, rest, -, -, hfit, rfl⟩ |
    ⟨f, d, hst, -, rfl⟩ := step_next_cases h
  · exact ⟨hs.1, hc⟩
  · exact ⟨hs.1, hc⟩
  · exact ⟨hs.1, rfl, b, hb, hf⟩
  · exact ⟨hs.1, cur_lt_of_byteAt hb⟩
  · exact ⟨hfit, trivial⟩
  · obtain ⟨-, b, hb, -⟩ := statusInv_decoding hst hs
    exact ⟨hs.1, cur_lt_of_byteAt hb⟩

/-- A cause is recorded where the bytes at the cursor give it: a byte of no form, or a truncated instruction of the form
that `Decoding` was entered with. -/
theorem step_keeps_errInv {s t : State} (hstatus : s.StatusInv) (hs : s.ErrInv) (h : step s = .next t) : t.ErrInv := by
  have hne : s.st ≠ .error := fun hst => by simp [step_error hst] at h
  have herr := (errInv_iff hne).1 hs
  obtain ⟨-, -, rfl⟩ | ⟨-, -, rfl⟩ | ⟨_, _, -, -, -, rfl⟩ | ⟨b, -, hb, hf, rfl⟩ | ⟨_, _, _, _, -, -, -, rfl⟩ |
    ⟨f, d, hst, hi, rfl⟩ := step_next_cases h
  · exact (errInv_iff (by simp)).2 herr
  · exact (errInv_iff (by simp)).2 herr
  · exact (errInv_iff (by simp)).2 herr
  · have hdec : decode s.remaining = .unsupported b := decode_eq_unsupported_iff.2 ⟨_, remaining_of_byteAt hb, hf⟩
    exact ⟨by simp [unsupportedOpcode], by simp [unsupportedOpcode], fun _ => hdec, by simp [unsupportedOpcode]⟩
  · exact (errInv_iff (by simp)).2 herr
  · obtain ⟨-, b, hb, hf⟩ := statusInv_decoding hst hstatus
    have hdec := decode_remaining_truncated hb hf hi
    exact ⟨by simp [unexpectedEndOfStream], fun _ => rfl, by simp [unexpectedEndOfStream], fun _ => hdec⟩

/-- A completed instruction's encoding joins the bytes before the cursor, and its record the output. -/
theorem outInv_complete {s : State} {i : Instr} {rest : List Byte} (hs : s.OutInv)
    (h : decode s.remaining = .instr i rest) : (s.complete (specRecord i) (s.cur + i.length)).OutInv := by
  obtain ⟨is, hwf, hbytes, hout⟩ := hs
  refine ⟨is ++ [i], ?_, ?_, ?_⟩
  · simp only [List.forall_mem_append, List.forall_mem_singleton]
    exact ⟨hwf, (encode_of_decode h).1⟩
  · simp only [complete_mem, complete_cur, bytes_append, Nat.zero_add, hbytes, bytes_of_decode h, List.flatMap_append,
      List.flatMap_singleton]
  · simp [hout]

theorem step_keeps_outInv {s t : State} (hstatus : s.StatusInv) (hs : s.OutInv) (h : step s = .next t) : t.OutInv := by
  obtain ⟨-, -, rfl⟩ | ⟨-, -, rfl⟩ | ⟨_, _, -, -, -, rfl⟩ | ⟨_, -, -, -, rfl⟩ | ⟨f, d, i, rest, hst, hi, -, rfl⟩ |
    ⟨_, _, -, -, rfl⟩ := step_next_cases h
  · exact OutInv_of_same rfl rfl rfl hs
  · exact OutInv_of_same rfl rfl rfl hs
  · exact OutInv_of_same rfl rfl rfl hs
  · exact OutInv_of_same rfl rfl rfl hs
  · obtain ⟨-, b, hb, hf⟩ := statusInv_decoding hst hstatus
    exact outInv_complete hs (decode_remaining_instr hb hf hi)
  · exact OutInv_of_same rfl rfl rfl hs

theorem step_keeps_inv {s t : State} (hs : s.Inv) (h : step s = .next t) : t.Inv where
  stream := step_keeps_streamInv hs.stream h
  status := step_keeps_statusInv hs.status h
  err := step_keeps_errInv hs.status hs.err h
  out := step_keeps_outInv hs.status hs.out h

/-! ### Launched states -/

theorem launched_inv (bytes : List Byte) : (launched bytes).Inv where
  stream := by
    refine ⟨writeBytes_wf [] 0 bytes rfl, fun c hc => ?_⟩
    obtain h | ⟨-, h⟩ := mem_writeBytes hc
    · cases h
    · simpa using h
  status := ⟨Nat.zero_le _, trivial⟩
  err := (errInv_iff (by simp)).2 rfl
  out := ⟨[], by simp, rfl, rfl⟩

theorem launched_remaining (bytes : List Byte) : (launched bytes).remaining = bytes := bytes_launched bytes

/-- The offsets of a launched stream read the supplied bytes. -/
theorem launched_byteAt (bytes : List Byte) (a : Nat) : (launched bytes).byteAt a = bytes[a]? := by
  have h := remaining_getElem? (launched bytes) a
  rwa [launched_remaining, launched_cur, Nat.zero_add, eq_comm] at h

end Machine

end Sys2Proof
end

section
/-! The statements about launches and the invariant (10_state.md, 70_reset_and_hazards.md). -/

namespace Sys2Proof.Proofs

open Sys2Proof Sys2Proof.Machine

/-- Settles O37: each part of the invariant is kept by each row of R21; the error and the output parts rest on the status
part, which ties the form in `Decoding` to the byte at the cursor. -/
theorem stepKeepsInvariant : Obligations.StepKeepsInvariant := fun _ _ hs h => step_keeps_inv hs h

/-- Settles O36: no byte is before the cursor, and every listed offset is one of the supplied bytes'. -/
theorem launchMeetsInvariant : Obligations.LaunchMeetsInvariant := launched_inv

/-- Settles O35: the reset state is the one launched on the empty stream. -/
theorem resetMeetsInvariant : Obligations.ResetMeetsInvariant := launched_inv []

/-- Settles O38: the status part of the invariant gives each running state a row of R21. -/
theorem onlyTerminalStatesStop : Obligations.OnlyTerminalStatesStop := by
  rintro s ⟨-, ⟨hcur, hstatus⟩, -, -⟩
  cases hst : s.st with
  | scanning =>
    obtain hlt | heq := Nat.lt_or_eq_of_le hcur
    · exact .inl ⟨_, step_scanning_beforeEnd hst hlt⟩
    · exact .inl ⟨_, step_scanning_atEnd hst heq⟩
  | dispatching =>
    rw [hst] at hstatus
    have hb : s.byteAt s.cur = some (s.mem.read s.cur) := byteAt_eq_some.2 ⟨hstatus, rfl⟩
    cases hf : classify (s.mem.read s.cur) with
    | some f => exact .inl ⟨_, step_dispatching_form hst hb hf⟩
    | none => exact .inl ⟨_, step_dispatching_noForm hst hb hf⟩
  | decoding f d =>
    cases hi : decodeForm f s.remaining with
    | some p => exact .inl ⟨_, step_decoding_complete (rest := p.2) hst hi⟩
    | none => exact .inl ⟨_, step_decoding_truncated hst hi⟩
  | done => exact .inr (.inl ⟨rfl, step_done hst⟩)
  | error => exact .inr (.inr ⟨rfl, step_error hst⟩)

/-- Settles O43: the cursor is at most `N` and so below `2 ^ CURSOR_BITS`. -/
theorem cursorRegisterNeverWraps : Obligations.CursorRegisterNeverWraps := by
  intro s hs hfits
  have hcur : s.cur ≤ s.n := hs.status.1
  have hpos := Nat.two_pow_pos Config.cursorBits
  unfold Config.streamFits at hfits
  rw [State.cursorRegister, BitVec.toNat_ofNat]
  exact Nat.mod_eq_of_lt (by omega)

/-- Settles O33: a launch that is taken leaves `launched bytes`, whose offsets read the supplied bytes. -/
theorem launchValues : Obligations.LaunchValues := by
  intro bytes s
  refine ⟨fun t h => ?values, rfl, fun hst => ?taken⟩
  case values =>
    obtain ⟨rfl, -⟩ := launch_eq_next h
    exact ⟨rfl, rfl, rfl, rfl, rfl, launched_byteAt bytes⟩
  case taken =>
    obtain hst | hst := hst <;> simp [launch, State.launchable, hst]

/-- Settles O34: none of the three conditions of `State.launchable` holds. -/
theorem noLaunchDuringRun : Obligations.NoLaunchDuringRun := by
  intro bytes s hreset hdone herror
  simp [launch, State.launchable, hreset, hdone, herror]

end Sys2Proof.Proofs
end

section
/-! SUPPORT. The transitions of one instruction as a run from `Scanning`, and the whole runs they make (rules R21, R111). -/

namespace Sys2Proof.Machine

/-! ### From `Scanning` to the end of one instruction -/

theorem decode_at_cursor {s : State} {i : Instr} {rest : List Byte} (h : decode s.remaining = .instr i rest) :
    ∃ b, s.byteAt s.cur = some b ∧ classify b = some i.form ∧ decodeForm i.form s.remaining = some (i, rest) := by
  obtain ⟨b, tl, hbs, hf, hi⟩ := decode_eq_instr h
  exact ⟨b, byteAt_of_remaining hbs, hf, hi⟩

theorem truncated_at_cursor {s : State} (h : decode s.remaining = .truncated) :
    ∃ b f, s.byteAt s.cur = some b ∧ classify b = some f ∧ decodeForm f s.remaining = none := by
  obtain ⟨b, tl, f, hbs, hf, hi⟩ := decode_eq_truncated_iff.1 h
  exact ⟨b, f, byteAt_of_remaining hbs, hf, hi⟩

/-- `Dispatching` is entered at a byte of the stream, and `Decoding` of the byte's form after it. -/
theorem steps_to_decoding {s : State} {b : Byte} {f : Form} (hst : s.st = .scanning) (hb : s.byteAt s.cur = some b)
    (hf : classify b = some f) : step s = .next { s with st := .dispatching } ∧
      step { s with st := .dispatching } = .next (s.enterDecoding f) :=
  ⟨step_scanning_beforeEnd hst (cur_lt_of_byteAt hb), step_dispatching_form (s := { s with st := .dispatching }) rfl hb hf⟩

theorem run_atEnd {s : State} (hst : s.st = .scanning) (hc : s.cur = s.n) : run 1 s = .next { s with st := .done } :=
  run_next (step_scanning_atEnd hst hc)

theorem run_noForm {s : State} {b : Byte} (hst : s.st = .scanning) (hb : s.byteAt s.cur = some b)
    (hf : classify b = none) : run 2 s = .next (s.afterError .unsupportedOpcode b) := by
  rw [run_next (step_scanning_beforeEnd hst (cur_lt_of_byteAt hb))]
  exact run_next (step_dispatching_noForm (s := { s with st := .dispatching }) rfl hb hf)

theorem run_truncated {s : State} (hst : s.st = .scanning) (h : decode s.remaining = .truncated) :
    run 3 s = .next (s.afterError .unexpectedEndOfStream 0#8) := by
  obtain ⟨b, f, hb, hf, hi⟩ := truncated_at_cursor h
  obtain ⟨h1, h2⟩ := steps_to_decoding hst hb hf
  rw [run_next h1, run_next h2]
  exact run_next (step_decoding_truncated (enterDecoding_st f s) hi)

theorem run_instr {s : State} {i : Instr} {rest : List Byte} (hst : s.st = .scanning)
    (h : decode s.remaining = .instr i rest) : run 3 s = .next (s.afterRecord i.length (specRecord i)) := by
  obtain ⟨b, hb, hf, hi⟩ := decode_at_cursor h
  obtain ⟨h1, h2⟩ := steps_to_decoding hst hb hf
  rw [run_next h1, run_next h2]
  exact run_next (step_decoding_complete (enterDecoding_st i.form s) hi)

/-- The instruction read at the cursor lies inside the stream. -/
theorem decode_fits {s : State} {i : Instr} {rest : List Byte} (h : decode s.remaining = .instr i rest) :
    s.cur + i.length ≤ s.n := by
  obtain ⟨_, _, _, hi⟩ := decode_at_cursor h
  exact decodeForm_fits hi

/-- After a record, what remains is what the decoder left. -/
theorem remaining_afterRecord {s : State} {i : Instr} {rest : List Byte} (r : Record)
    (h : decode s.remaining = .instr i rest) : (s.afterRecord i.length r).remaining = rest := by
  obtain ⟨-, henc⟩ := encode_of_decode h
  calc (s.afterRecord i.length r).remaining = s.remaining.drop i.length := by
        rw [State.remaining, State.remaining, bytes_drop, Nat.sub_sub]; rfl
    _ = rest := by rw [henc, List.drop_left' (encode_length i)]

/-! ### Whole runs -/

/-- From `Scanning` before the encodings of well-formed instructions, each instruction takes three transitions, and the end
of the stream one. -/
theorem run_encoded {is : List Instr} (hwf : ∀ i ∈ is, i.wf = true) {s : State} (hst : s.st = .scanning)
    (hcur : s.cur ≤ s.n) (hrem : s.remaining = is.flatMap encode) :
    run (3 * is.length + 1) s = .next { s with st := .done, cur := s.n, out := s.out ++ is.map specRecord } := by
  induction is generalizing s with
  | nil =>
    have hc : s.cur = s.n := by
      have := remaining_length s
      simp only [hrem, List.flatMap_nil, List.length_nil] at this
      omega
    rw [show 3 * [].length + 1 = 1 from rfl, run_atEnd hst hc]
    simp [hc]
  | cons i is ih =>
    obtain ⟨hi, his⟩ := List.forall_mem_cons.1 hwf
    have hdec : decode s.remaining = .instr i (is.flatMap encode) := by
      rw [hrem, List.flatMap_cons, decode_encode hi]
    have htail := ih his (s := s.afterRecord i.length (specRecord i)) rfl (decode_fits hdec)
      (remaining_afterRecord _ hdec)
    rw [show 3 * (i :: is).length + 1 = 3 + (3 * is.length + 1) by simp only [List.length_cons]; omega,
      run_add _ (run_instr hst hdec), htail]
    simp [State.afterRecord]

/-- The three ends of a run from `Scanning` in which `k` instructions complete, with R111's counts. -/
def EndsAfter (k : Nat) (s t : State) : Prop :=
  (t.st = .done ∧ t.err.cause = .none ∧ run (3 * k + 1) s = .next t) ∨
  (t.st = .error ∧ t.err.cause = .unsupportedOpcode ∧ run (3 * k + 2) s = .next t) ∨
  (t.st = .error ∧ t.err.cause = .unexpectedEndOfStream ∧ run (3 * k + 3) s = .next t)

/-- One instruction before a run that ends adds three transitions. -/
theorem endsAfter_succ {k : Nat} {s s' t : State} (hrun : run 3 s = .next s') (h : EndsAfter k s' t) :
    EndsAfter (k + 1) s t := by
  have hadd (j : Nat) : run (3 * (k + 1) + j) s = run (3 * k + j) s' := by
    rw [show 3 * (k + 1) + j = 3 + (3 * k + j) by omega, run_add _ hrun]
  simpa only [EndsAfter, hadd] using h

/-- Every run ends: an instruction shortens what remains by two bytes at least. -/
theorem run_ends {s : State} (hst : s.st = .scanning) (hcur : s.cur ≤ s.n) (herr : s.err.cause = .none) :
    ∃ k t, EndsAfter k s t ∧ t.out.length = s.out.length + k ∧ 2 * k ≤ s.n - s.cur := by
  induction hm : s.n - s.cur using Nat.strong_induction_on generalizing s with
  | _ m ih =>
    cases hdec : decode s.remaining with
    | noBytes =>
      have hc : s.cur = s.n := by
        have hlen := remaining_length s
        rw [decode_eq_noBytes_iff.1 hdec, List.length_nil] at hlen
        omega
      exact ⟨0, { s with st := .done }, .inl ⟨rfl, herr, run_atEnd hst hc⟩, rfl, Nat.zero_le _⟩
    | unsupported b =>
      obtain ⟨tl, hbs, hf⟩ := decode_eq_unsupported_iff.1 hdec
      exact ⟨0, _, .inr (.inl ⟨rfl, rfl, run_noForm hst (byteAt_of_remaining hbs) hf⟩), rfl, Nat.zero_le _⟩
    | truncated => exact ⟨0, _, .inr (.inr ⟨rfl, rfl, run_truncated hst hdec⟩), rfl, Nat.zero_le _⟩
    | instr i rest =>
      have hfit := decode_fits hdec
      have hlen := length_range i
      obtain ⟨k, t, hend, hout, hk⟩ := ih (s.n - (s.cur + i.length)) (by omega)
        (s := s.afterRecord i.length (specRecord i)) rfl hfit herr rfl
      refine ⟨k + 1, t, endsAfter_succ (run_instr hst hdec) hend, ?_, ?_⟩
      · rw [hout, State.afterRecord, List.length_append, List.length_singleton]
        omega
      · omega

/-! ### Runs from a launch -/

/-- A run from a launch keeps the invariant and the launched stream. -/
theorem reaches_inv {bytes : List Byte} {k : Nat} {s : State} (h : Reaches bytes k s) :
    s.Inv ∧ s.mem = (launched bytes).mem ∧ s.n = bytes.length := by
  refine run_keeps (P := fun u => u.Inv ∧ u.mem = (launched bytes).mem ∧ u.n = bytes.length) ?_
    ⟨launched_inv bytes, rfl, rfl⟩ h
  rintro u v ⟨hinv, hmem, hn⟩ hstep
  obtain ⟨hmem', hn'⟩ := step_keeps_stream hstep
  exact ⟨step_keeps_inv hinv hstep, hmem'.trans hmem, hn'.trans hn⟩

/-- In a run from a launch the bytes before the cursor are those of the launched stream, and so are those after it. -/
theorem reaches_bytes {bytes : List Byte} {k : Nat} {s : State} (h : Reaches bytes k s) :
    s.mem.bytes 0 s.cur = bytes.take s.cur ∧ s.remaining = bytes.drop s.cur := by
  obtain ⟨hinv, hmem, hn⟩ := reaches_inv h
  have hcur : s.cur ≤ bytes.length := hn ▸ hinv.status.1
  have hall : s.mem.bytes 0 bytes.length = bytes := by rw [hmem, bytes_launched]
  constructor
  · rw [← bytes_take _ _ hcur, hall]
  · have hdrop := bytes_drop s.mem 0 s.cur bytes.length
    rwa [hall, Nat.zero_add, ← hn, eq_comm] at hdrop

/-- The cursor stays between where it was and the end of the stream. -/
theorem step_cur_bounds {s t : State} (hs : s.cur ≤ s.n) (h : step s = .next t) : s.cur ≤ t.cur ∧ t.cur ≤ t.n := by
  obtain ⟨-, -, rfl⟩ | ⟨-, -, rfl⟩ | ⟨_, _, -, -, -, rfl⟩ | ⟨_, -, -, -, rfl⟩ | ⟨_, _, i, _, -, -, hfit, rfl⟩ |
    ⟨_, _, -, -, rfl⟩ := step_next_cases h
  · exact ⟨le_rfl, hs⟩
  · exact ⟨le_rfl, hs⟩
  · exact ⟨le_rfl, hs⟩
  · exact ⟨le_rfl, hs⟩
  · exact ⟨Nat.le_add_right _ _, hfit⟩
  · exact ⟨le_rfl, hs⟩

end Sys2Proof.Machine
end

section
/-! The statements about transitions and whole runs (10_state.md, 60_exceptions.md, 70_reset_and_hazards.md). -/

namespace Sys2Proof.Proofs

open Sys2Proof Sys2Proof.Machine

/-- Settles O42, by induction on the instructions: decoding the next encoding leaves the later ones. -/
theorem encodedStreamDecodesWhole : Obligations.EncodedStreamDecodesWhole := by
  intro is hwf
  have hrun := run_encoded hwf (s := launched (is.flatMap encode)) rfl (Nat.zero_le _) (launched_remaining _)
  exact ⟨_, hrun, rfl, rfl, rfl, rfl⟩

/-- Settles O13: the end of the stream, the opcode byte and the instruction's bytes are looked at in the first, the second
and the third transition. -/
theorem errorPriority : Obligations.ErrorPriority := fun _ hst =>
  ⟨run_atEnd hst, fun _ => run_noForm hst, run_truncated hst⟩

/-- Settles O12: the two steps to `Decoding` write nothing but `st`, so the same bytes are there to decode. -/
theorem stepRunsDecodedInstruction : Obligations.StepRunsDecodedInstruction := by
  intro s i rest h
  obtain ⟨b, hb, hf, hi⟩ := decode_at_cursor h
  refine ⟨fun d hst => step_decoding_exec hst (fetchInstr_of_decode h), fun hst => ?_⟩
  obtain ⟨h1, h2⟩ := steps_to_decoding hst hb hf
  exact ⟨h1, h2, step_decoding_exec (enterDecoding_st i.form s) (fetchInstr_of_decodeForm hi)⟩

/-- Settles O28, by the rows of R21. -/
theorem cursorWrittenOnlyOnCompletion : Obligations.CursorWrittenOnlyOnCompletion := by
  intro s t h
  obtain ⟨-, -, rfl⟩ | ⟨-, -, rfl⟩ | ⟨_, _, -, -, -, rfl⟩ | ⟨_, -, -, -, rfl⟩ | ⟨f, d, i, rest, hst, hi, -, rfl⟩ |
    ⟨_, _, -, -, rfl⟩ := step_next_cases h
  · exact .inl ⟨rfl, by simp⟩
  · exact .inl ⟨rfl, by simp⟩
  · exact .inl ⟨rfl, by simp⟩
  · exact .inl ⟨rfl, by simp⟩
  · exact .inr ⟨f, d, i, rest, hst, hi, rfl, rfl⟩
  · exact .inl ⟨rfl, by simp⟩

/-- Settles O29, by induction on the steps. -/
theorem cursorMonotoneAndBounded : Obligations.CursorMonotoneAndBounded := by
  intro k s t hs h
  refine run_keeps (P := fun u => s.cur ≤ u.cur ∧ u.cur ≤ u.n) ?_ ⟨le_rfl, hs⟩ h
  rintro u v ⟨hge, hle⟩ hstep
  obtain ⟨hge', hle'⟩ := step_cur_bounds hle hstep
  exact ⟨hge.trans hge', hle'⟩

/-- Settles O30, by the rows of R21: two of them lead to `Error`. -/
theorem errorEntry : Obligations.ErrorEntry := by
  intro s t h herr
  obtain ⟨-, -, rfl⟩ | ⟨-, -, rfl⟩ | ⟨_, _, -, -, -, rfl⟩ | ⟨b, hst, hb, hf, rfl⟩ | ⟨_, _, _, _, -, -, -, rfl⟩ |
    ⟨f, d, hst, hi, rfl⟩ := step_next_cases h
  · cases herr
  · cases herr
  · cases herr
  · exact .inl ⟨hst, b, hb, hf, rfl⟩
  · cases herr
  · exact .inr ⟨f, d, hst, hi, rfl⟩

/-- Settles O39: the invariant holds in every state a launch reaches, and there the stream is the launched one. -/
theorem outputIsTheDecodedPrefix : Obligations.OutputIsTheDecodedPrefix := by
  intro bytes k s h
  obtain ⟨hinv, -, hn⟩ := reaches_inv h
  obtain ⟨hbefore, hafter⟩ := reaches_bytes h
  refine ⟨?output, fun hst => ?done, fun hst => ?error⟩
  case output =>
    have hout := hinv.out
    rwa [State.OutInv, hbefore] at hout
  case done =>
    have hcur := hinv.status.2
    rw [hst] at hcur
    exact ⟨hcur.trans hn, (errInv_iff (by simp [hst])).1 hinv.err⟩
  case error =>
    obtain ⟨hcause, hbyte, hunsupported, htruncated⟩ := hinv.err
    rw [hafter] at hunsupported htruncated
    cases hc : s.err.cause with
    | none => exact absurd hc (hcause.2 hst)
    | unsupportedOpcode => exact .inl ⟨rfl, hunsupported hc⟩
    | unexpectedEndOfStream => exact .inr ⟨rfl, hbyte (by simp [hc]), htruncated hc⟩

/-- Settles O40: the observation's codes are those of O39's ends, whose failing bytes start at the cursor. -/
theorem observationOfEndedRun : Obligations.ObservationOfEndedRun := by
  intro bytes k s h
  obtain ⟨-, hdone, herror⟩ := outputIsTheDecodedPrefix bytes k s h
  refine ⟨fun hst => ?_, fun hst => ?_⟩
  · obtain ⟨hcur, herr⟩ := hdone hst
    simp [State.observe, hst, hcur, herr, St.code, Cause.code]
  · obtain ⟨hc, hdec⟩ | ⟨hc, hbyte, hdec⟩ := herror hst
    · obtain ⟨tl, hbs, hf⟩ := decode_eq_unsupported_iff.1 hdec
      have hb : bytes[s.cur]? = some s.err.byte := by rw [← Nat.add_zero s.cur, ← List.getElem?_drop, hbs]; rfl
      exact .inl ⟨_, hb, hf, by simp [State.observe, hst, hc, St.code, Cause.code]⟩
    · obtain ⟨b, tl, -, hbs, -⟩ := decode_eq_truncated_iff.1 hdec
      have hlt : s.cur < bytes.length := by
        rw [← List.drop_eq_nil_iff.not.trans not_le, hbs]
        simp
      exact .inr ⟨hlt, by simp [State.observe, hst, hc, hbyte, St.code, Cause.code]⟩

/-- Settles O41: the run from the launch starts with no record and all the bytes remaining. -/
theorem everyRunTerminates : Obligations.EveryRunTerminates := by
  intro bytes
  obtain ⟨k, t, hend, hout, hk⟩ := run_ends (s := launched bytes) rfl (Nat.zero_le _) rfl
  obtain rfl : t.out.length = k := hout.trans (Nat.zero_add k)
  exact ⟨t, hk, hend⟩

end Sys2Proof.Proofs
end

section
/-! SUPPORT. The spec's pseudocode as the decoder's functions of the bytes at the read pointer (rules R57, R62, R79, R84,
R87). -/

namespace Sys2Proof.Machine

/-! ### One `Consume` of an item -/

/-- The bytes from the read pointer to the end of the stream. -/
def State.unread (s : State) (d : DecodeRegs) : List Byte := s.mem.bytes d.p (s.n - d.p)

@[simp] theorem unread_length (s : State) (d : DecodeRegs) : (s.unread d).length = s.n - d.p := bytes_length ..

theorem unread_start (s : State) : s.unread (.start s.cur) = s.remaining := rfl

/-- An item whose bytes are there is read, and the pointer moves past them. -/
theorem fetchItem_eq_some {s : State} {d : DecodeRegs} {it : Item} {bs tl : List Byte} (h : s.unread d = bs ++ tl)
    (hlen : bs.length = it.size) :
    ∃ d', s.fetchItem it d = some (bs, d') ∧ s.unread d' = tl ∧ d'.p = d.p + it.size := by
  have hsize : it.size ≤ s.n - d.p := by
    rw [← unread_length, h, List.length_append]
    omega
  have hpos := size_pos it
  have hread : s.mem.bytes d.p it.size = bs := by
    rw [← bytes_take _ _ hsize, ← State.unread, h, ← hlen, List.take_left]
  refine ⟨_, by rw [fetchItem_fits it (by omega), hread], ?_, latch_p ..⟩
  rw [State.unread, latch_p, ← Nat.sub_sub, ← bytes_drop, ← State.unread, h, ← hlen, List.drop_left]

theorem fetchItem_eq_none {s : State} {d : DecodeRegs} {it : Item} (h : (s.unread d).length < it.size) :
    s.fetchItem it d = none :=
  fetchItem_short it (by rw [unread_length] at h; omega)

theorem fetchItem_one_cases (s : State) (d : DecodeRegs) {it : Item} (hit : it.size = 1) :
    (∃ b tl d', s.unread d = b :: tl ∧ s.fetchItem it d = some ([b], d') ∧ s.unread d' = tl ∧ d'.p = d.p + 1) ∨
    (s.unread d = [] ∧ s.fetchItem it d = none) := by
  rcases hu : s.unread d with _ | ⟨b, tl⟩
  · exact .inr ⟨rfl, fetchItem_eq_none (by rw [hu, hit]; exact Nat.one_pos)⟩
  · obtain ⟨d', hf, hu', hp⟩ := fetchItem_eq_some (it := it) (bs := [b]) hu hit.symm
    exact .inl ⟨b, tl, d', rfl, hf, hu', hit ▸ hp⟩

theorem fetchItem_word_cases (s : State) (d : DecodeRegs) :
    (∃ lo hi tl d', s.unread d = lo :: hi :: tl ∧ s.fetchItem .wordField d = some ([lo, hi], d') ∧ d'.p = d.p + 2) ∨
    ((s.unread d = [] ∨ ∃ b, s.unread d = [b]) ∧ s.fetchItem .wordField d = none) := by
  rcases hu : s.unread d with _ | ⟨lo, _ | ⟨hi, tl⟩⟩
  · exact .inr ⟨.inl rfl, fetchItem_eq_none (by rw [hu]; decide)⟩
  · exact .inr ⟨.inr ⟨lo, rfl⟩, fetchItem_eq_none (by rw [hu]; exact Nat.one_lt_two)⟩
  · obtain ⟨d', hf, -, hp⟩ := fetchItem_eq_some (it := .wordField) (bs := [lo, hi]) hu rfl
    exact .inl ⟨lo, hi, tl, d', rfl, hf, hp⟩

theorem le16_eq_toNat (lo hi : Byte) : le16 lo hi = (joinWord lo hi).toNat := (joinWord_toNat lo hi).symm

/-! ### The decoders -/

/-- A decoder's answer with only the read pointer of the registers it ends with. -/
def endPointer {α : Type} (o : Option (α × DecodeRegs)) : Option (α × Nat) := o.map fun x => (x.1, x.2.p)

/-- `ResolveRM` is `decodeRm` of the bytes at the read pointer. -/
theorem pseudoResolveRM_eq (s : State) (mod : BitVec 2) (rm : RegIx) (w : Width) (d : DecodeRegs) :
    endPointer (pseudoResolveRM s mod rm w d) =
      (decodeRm mod rm (s.unread d)).map fun x => (specRmOperand w x.1, d.p + x.1.tailLength) := by
  unfold pseudoResolveRM decodeRm
  split_ifs
  · rfl
  · obtain ⟨lo, hi, tl, d', hu, hf, hp⟩ | ⟨hu | ⟨b, hu⟩, hf⟩ := fetchItem_word_cases s d
    · simp [hu, hf, hp, endPointer, specRmOperand, RmForm.tailLength, le16_eq_toNat]
    · simp [hu, hf, endPointer]
    · simp [hu, hf, endPointer]
  · rfl
  · obtain ⟨b, tl, d', hu, hf, -, hp⟩ | ⟨hu, hf⟩ := fetchItem_one_cases s d (it := .byteField) rfl
    · simp [hu, hf, hp, endPointer, specRmOperand, RmForm.tailLength, sext16_eq_toInt]
    · simp [hu, hf, endPointer]
  · obtain ⟨lo, hi, tl, d', hu, hf, hp⟩ | ⟨hu | ⟨b, hu⟩, hf⟩ := fetchItem_word_cases s d
    · simp [hu, hf, hp, endPointer, specRmOperand, RmForm.tailLength, le16_eq_toNat, int16_toNat]
    · simp [hu, hf, endPointer]
    · simp [hu, hf, endPointer]

/-- What the decoder of a form reads, as the record and the end of the instruction. -/
def recordAndEnd (cur : Nat) (x : Instr × List Byte) : Record × Nat := (specRecord x.1, cur + x.1.length)

theorem specRecord_regMemInstr (d : Direction) (w : Width) (reg : RegIx) (rm : RmForm) :
    specRecord (regMemInstr d w reg rm) = orient d (.reg reg w) (specRmOperand w rm) := by
  cases d <;> cases w <;> rfl

theorem pseudoExecRM_eq (s : State) :
    endPointer (pseudoExecRM s) = (decodeForm .movRmReg s.remaining).map (recordAndEnd s.cur) := by
  unfold pseudoExecRM
  rw [← unread_start]
  obtain ⟨b0, tl, d, hu, hf, hu', hp⟩ | ⟨hu, hf⟩ := fetchItem_one_cases s (.start s.cur) (it := .opcode) rfl
  · obtain ⟨m, tl', d', hum, hfm, hum', hp'⟩ | ⟨hum, hfm⟩ := fetchItem_one_cases s d (it := .modrm) rfl
    · have hrm := pseudoResolveRM_eq s (modField m) (rmField m) (rmWidth b0) d'
      obtain rfl : tl = m :: tl' := hu'.symm.trans hum
      simp only [hu, hf, hfm, decodeForm_regMem, ← hum']
      cases hd : decodeRm (modField m) (rmField m) (s.unread d') with
      | none =>
        rw [hd, Option.map_none, endPointer, Option.map_eq_none_iff] at hrm
        simp [hrm, endPointer]
      | some x =>
        rw [hd, Option.map_some, endPointer, Option.map_eq_some_iff] at hrm
        obtain ⟨⟨op, d''⟩, hr, hx⟩ := hrm
        obtain ⟨rfl, hp''⟩ := Prod.mk.inj hx
        have hend : d''.p = s.cur + (2 + x.1.tailLength) := by
          rw [hp', hp, start_p] at hp''
          exact hp''.trans (by omega)
        simp [hr, endPointer, recordAndEnd, specRecord_regMemInstr, hend]
    · obtain rfl : tl = [] := hu'.symm.trans hum
      simp [hu, hf, hfm, endPointer, decodeForm, decodeRegMem]
  · simp [hu, hf, endPointer, decodeForm, decodeRegMem]

theorem pseudoExecImm_eq (s : State) :
    endPointer (pseudoExecImm s) = (decodeForm .movImmReg s.remaining).map (recordAndEnd s.cur) := by
  unfold pseudoExecImm
  rw [← unread_start]
  obtain ⟨b0, tl, d, hu, hf, rfl, hp⟩ | ⟨hu, hf⟩ := fetchItem_one_cases s (.start s.cur) (it := .opcode) rfl
  · cases hw : immWidth b0 with
    | byte =>
      obtain ⟨b, tl', d', hub, hfb, -, hp'⟩ | ⟨hub, hfb⟩ := fetchItem_one_cases s d (it := .byteField) rfl
      · simp [hu, hf, hw, hub, hfb, hp, hp', endPointer, decodeForm_byteImm, recordAndEnd, specRecord, Instr.length,
          movRecord, sext16_eq_toInt]
      · simp [hu, hf, hw, hub, hfb, endPointer, decodeForm, decodeImm]
    | word =>
      obtain ⟨lo, hi, tl', d', hub, hfb, hp'⟩ | ⟨hub | ⟨b, hub⟩, hfb⟩ := fetchItem_word_cases s d
      · simp [hu, hf, hw, hub, hfb, hp, hp', endPointer, decodeForm_wordImm, recordAndEnd, specRecord, Instr.length,
          movRecord, le16_eq_toNat, int16_toNat]
      · simp [hu, hf, hw, hub, hfb, endPointer, decodeForm, decodeImm]
      · simp [hu, hf, hw, hub, hfb, endPointer, decodeForm, decodeImm]
  · simp [hu, hf, endPointer, decodeForm, decodeImm]

/-- Both accumulator forms: the placing of the address agrees with the record of the instruction built. -/
theorem pseudoExecAcc_eq (s : State) {place : Operand → Record} {instr : Byte → Word → Instr}
    (hrecord : ∀ b a, specRecord (instr b a) = place (.direct a.toNat)) (hlength : ∀ b a, (instr b a).length = 3) :
    endPointer (pseudoExecAcc s place) = (decodeAcc instr s.remaining).map (recordAndEnd s.cur) := by
  unfold pseudoExecAcc
  rw [← unread_start]
  obtain ⟨b0, tl, d, hu, hf, rfl, hp⟩ | ⟨hu, hf⟩ := fetchItem_one_cases s (.start s.cur) (it := .opcode) rfl
  · obtain ⟨lo, hi, tl', d', hub, hfb, hp'⟩ | ⟨hub | ⟨b, hub⟩, hfb⟩ := fetchItem_word_cases s d
    · simp [hu, hf, hub, hfb, hp, hp', endPointer, decodeAcc, recordAndEnd, hrecord, hlength, le16_eq_toNat]
    · simp [hu, hf, hub, hfb, endPointer, decodeAcc]
    · simp [hu, hf, hub, hfb, endPointer, decodeAcc]
  · simp [hu, hf, endPointer, decodeAcc]

/-- The pseudocode of a form's decoder answers the record and the length of the instruction `decodeForm` reads. -/
theorem pseudoDecoder_eq (f : Form) (s : State) :
    endPointer (pseudoDecoder f s) = (decodeForm f s.remaining).map (recordAndEnd s.cur) := by
  cases f with
  | movRmReg => exact pseudoExecRM_eq s
  | movImmReg => exact pseudoExecImm_eq s
  | movMemAcc => exact pseudoExecAcc_eq s specRecord_memAccInstr memAccInstr_length
  | movAccMem => exact pseudoExecAcc_eq (place := fun a => movRecord a accumulator) s specRecord_accMemInstr accMemInstr_length

end Sys2Proof.Machine
end

section
/-! The statement about the pseudocode (40_mov_regmem.md, 41_mov_imm.md, 42_mov_acc.md). -/

namespace Sys2Proof.Proofs

open Sys2Proof Sys2Proof.Machine

/-- Settles O14: the pseudocode ends where `decodeForm` does, with the record that the completed step appends. -/
theorem decodingRunsThePseudocode : Obligations.DecodingRunsThePseudocode := by
  intro s f d hst
  have h := pseudoDecoder_eq f s
  cases hi : decodeForm f s.remaining with
  | none =>
    rw [hi, Option.map_none, endPointer, Option.map_eq_none_iff] at h
    rw [h, step_decoding_truncated hst hi]
  | some x =>
    rw [hi, Option.map_some, endPointer, Option.map_eq_some_iff] at h
    obtain ⟨⟨r, regs⟩, hr, hx⟩ := h
    obtain ⟨rfl, hp⟩ := Prod.mk.inj hx
    rw [hr, step_decoding_complete (rest := x.2) hst hi, State.afterRecord, ← hp]

end Sys2Proof.Proofs
end

section
/-! SUPPORT. The fields of the opcode and the ModRM byte in numbers (rules R50, R58), where each form's decoder runs out of
bytes (R94), and the records of the forms (R25, R26). -/

namespace Sys2Proof

/-! ### Fields in numbers -/

theorem rmWidth_by_value (b : Byte) : rmWidth b = if b.toNat % 2 = 1 then .word else .byte := by
  simp [rmWidth, BitVec.getLsbD, Nat.testBit_eq_decide_div_mod_eq]

theorem rmDirection_by_value (b : Byte) : rmDirection b = if b.toNat / 2 % 2 = 1 then .regIsDst else .regIsSrc := by
  simp [rmDirection, BitVec.getLsbD, Nat.testBit_eq_decide_div_mod_eq]

theorem modField_eq_iff (m : Byte) (v : BitVec 2) : modField m = v ↔ m.toNat / 64 = v.toNat := topBits_eq_iff m v rfl

theorem regField_toNat (m : Byte) : (regField m).toNat = m.toNat / 8 % 8 := by
  simp [regField, BitVec.extractLsb'_toNat, Nat.shiftRight_eq_div_pow]

theorem rmField_toNat (m : Byte) : (rmField m).toNat = m.toNat % 8 := by
  simp [rmField, BitVec.extractLsb'_toNat]

/-- Setting bit 1 turns the opcode bytes 88 and 89 into 8A and 8B: the direction changes, the form and the width stay. -/
theorem setDirectionBit {b : Byte} (h : b = 0x88#8 ∨ b = 0x89#8) :
    classify b = some .movRmReg ∧ classify (b ||| 0b10#8) = some .movRmReg ∧ rmDirection b = .regIsSrc ∧
      rmDirection (b ||| 0b10#8) = .regIsDst ∧ rmWidth (b ||| 0b10#8) = rmWidth b := by
  obtain rfl | rfl := h <;> decide

/-! ### Where the bytes run out (R94) -/

theorem decodeForm_imm_eq_none_iff {b : Byte} {tl : List Byte} :
    decodeForm .movImmReg (b :: tl) = none ↔ (b :: tl).length < 2 + b.toNat / 8 % 2 := by
  rcases Nat.mod_two_eq_zero_or_one (b.toNat / 8) with hw | hw <;> rcases tl with _ | ⟨x, _ | ⟨y, rest⟩⟩ <;>
    simp [decodeForm, decodeImm, immWidth_by_value, hw]

theorem decodeAcc_eq_none_iff {instr : Byte → Word → Instr} {bs : List Byte} :
    decodeAcc instr bs = none ↔ bs.length < 3 := by
  rcases bs with _ | ⟨b, _ | ⟨lo, _ | ⟨hi, rest⟩⟩⟩ <;> simp [decodeAcc]

/-- `InstrLen` counts the opcode byte, the ModRM byte and the bytes that `decodeRm` needs. -/
theorem decodeRm_eq_none_iff {b m : Byte} (hf : classify b = some .movRmReg) (tl : List Byte) :
    ∃ L, instrLen b m = some L ∧ (decodeRm (modField m) (rmField m) tl = none ↔ 2 + tl.length < L) := by
  simp only [instrLen, hf, decodeRm]
  split_ifs
  · exact ⟨_, rfl, by simp; omega⟩
  · exact ⟨_, rfl, by rcases tl with _ | ⟨x, _ | ⟨y, rest⟩⟩ <;> simp; omega⟩
  · exact ⟨_, rfl, by simp; omega⟩
  · exact ⟨_, rfl, by rcases tl with _ | ⟨x, rest⟩ <;> simp; omega⟩
  · exact ⟨_, rfl, by rcases tl with _ | ⟨x, _ | ⟨y, rest⟩⟩ <;> simp; omega⟩

namespace Machine

theorem step_truncated_iff {s : State} {f : Form} {d : DecodeRegs} (hst : s.st = .decoding f d) :
    step s = .next (s.afterError .unexpectedEndOfStream 0#8) ↔ decodeForm f s.remaining = none := by
  refine ⟨fun h => ?_, step_decoding_truncated hst⟩
  cases hi : decodeForm f s.remaining with
  | none => rfl
  | some x =>
    rw [step_decoding_complete (rest := x.2) hst hi] at h
    simp [State.afterRecord, State.afterError] at h

/-- The register/memory decoder lacks a byte: there is no ModRM byte, or fewer bytes than `InstrLen` counts. -/
theorem decodeForm_regMem_eq_none_iff {s : State} {b : Byte} (hb : s.byteAt s.cur = some b)
    (hf : classify b = some .movRmReg) : decodeForm .movRmReg s.remaining = none ↔
      s.n - s.cur = 1 ∨ ∃ m L, s.byteAt (s.cur + 1) = some m ∧ instrLen b m = some L ∧ s.n - s.cur < L := by
  have hcur := cur_lt_of_byteAt hb
  cases hm : s.byteAt (s.cur + 1) with
  | none =>
    have hone : s.n - s.cur = 1 := by
      simp only [State.byteAt, ite_eq_right_iff, reduceCtorEq, imp_false, not_lt] at hm
      omega
    have hnone : decodeForm .movRmReg s.remaining = none := by
      rw [remaining_of_byteAt hb, show s.n - (s.cur + 1) = 0 by omega]
      rfl
    simp [hnone, hone]
  | some m =>
    have hcur' := (byteAt_eq_some.1 hm).1
    obtain ⟨L, hL, hnone⟩ := decodeRm_eq_none_iff (m := m) hf (s.mem.bytes (s.cur + 2) (s.n - (s.cur + 2)))
    rw [bytes_length, show 2 + (s.n - (s.cur + 2)) = s.n - s.cur by omega] at hnone
    have hne : s.n - s.cur ≠ 1 := by omega
    simp [remaining_of_byteAt_two hb hm, decodeForm_regMem, hnone, hL, hne]

/-! ### A register/memory instruction from its bytes -/

theorem step_regMem {s : State} {d : DecodeRegs} {b0 m : Byte} {rm : RmForm} {rest : List Byte}
    (hst : s.st = .decoding .movRmReg d) (hb0 : s.byteAt s.cur = some b0) (hm : s.byteAt (s.cur + 1) = some m)
    (hrm : decodeRm (modField m) (rmField m) (s.mem.bytes (s.cur + 2) (s.n - (s.cur + 2))) = some (rm, rest)) :
    step s = .next (s.afterRecord (2 + rm.tailLength)
      (orient (rmDirection b0) (.reg (regField m) (rmWidth b0)) (specRmOperand (rmWidth b0) rm))) := by
  have hi := decodeForm_regMem b0 m (s.mem.bytes (s.cur + 2) (s.n - (s.cur + 2)))
  rw [hrm, ← remaining_of_byteAt_two hb0 hm] at hi
  rw [step_decoding_complete hst hi, regMemInstr_length, specRecord_regMemInstr]

theorem bytes_of_byteAt_two {s : State} {p : Nat} {lo hi : Byte} (hlo : s.byteAt p = some lo)
    (hhi : s.byteAt (p + 1) = some hi) :
    s.mem.bytes p (s.n - p) = lo :: hi :: s.mem.bytes (p + 2) (s.n - (p + 2)) := by
  rw [bytes_of_byteAt hlo, bytes_of_byteAt hhi]

/-! ### Records (R25, R26, R77) -/

theorem specRmOperand_width {w w' : Width} {rm : RmForm} (h : (specRmOperand w rm).width? = some w') : w' = w := by
  cases rm <;> cases h
  rfl

/-- Both operands of a register/memory record have the instruction's width, where they have one. -/
theorem orient_width {d : Direction} {w w' : Width} {reg : RegIx} {rm : RmForm} {r : Record}
    (hr : r = orient d (.reg reg w) (specRmOperand w rm)) (h : r.dst.width? = some w' ∨ r.src.width? = some w') :
    w' = w := by
  subst hr
  cases d with
  | regIsSrc => exact h.elim specRmOperand_width fun hreg => (Option.some.inj hreg).symm
  | regIsDst => exact h.elim (fun hreg => (Option.some.inj hreg).symm) specRmOperand_width

theorem imm8_inRange (v : Byte) : (Operand.imm v.toInt).InRange := specRmOperand_inRange .byte (.baseDisp8 0#3 v)

theorem imm16_inRange (v : Word) : (Operand.imm v.toInt).InRange := specRmOperand_inRange .word (.baseDisp16 0#3 v)

theorem direct_inRange (a : Word) : (Operand.direct a.toNat).InRange := specRmOperand_inRange .word (.direct a)

theorem specRecord_inRange (i : Instr) : (specRecord i).dst.InRange ∧ (specRecord i).src.InRange := by
  cases i with
  | movRm8R8 reg rm => exact ⟨specRmOperand_inRange .byte rm, trivial⟩
  | movRm16R16 reg rm => exact ⟨specRmOperand_inRange .word rm, trivial⟩
  | movR8Rm8 reg rm => exact ⟨trivial, specRmOperand_inRange .byte rm⟩
  | movR16Rm16 reg rm => exact ⟨trivial, specRmOperand_inRange .word rm⟩
  | movR8Imm8 r imm => exact ⟨trivial, imm8_inRange imm⟩
  | movR16Imm16 r imm => exact ⟨trivial, imm16_inRange imm⟩
  | movAxAddrBit0Clear a => exact ⟨trivial, direct_inRange a⟩
  | movAxAddr a => exact ⟨trivial, direct_inRange a⟩
  | movAddrAxBit0Clear a => exact ⟨direct_inRange a, trivial⟩
  | movAddrAx a => exact ⟨direct_inRange a, trivial⟩

theorem specRecord_names_register (i : Instr) :
    (specRecord i).dst.isReg = true ∨ (specRecord i).src.isReg = true := by
  cases i with
  | movRm8R8 | movRm16R16 | movAddrAxBit0Clear | movAddrAx => exact .inr rfl
  | movR8Rm8 | movR16Rm16 | movR8Imm8 | movR16Imm16 | movAxAddrBit0Clear | movAxAddr => exact .inl rfl

/-- A record that a step appends is that of the instruction its decoder reads. -/
theorem appended_record {s t : State} {r : Record} (h : step s = .next t) (hr : t.out = s.out ++ [r]) :
    ∃ f d i rest, s.st = .decoding f d ∧ decodeForm f s.remaining = some (i, rest) ∧ r = specRecord i := by
  obtain ⟨hout | ⟨f, d, i, rest, hst, hi, -, -, -, hout⟩, -⟩ := Proofs.recordAppendedOnlyOnCompletion s t h
  · rw [hout] at hr
    simp at hr
  · rw [hout] at hr
    exact ⟨f, d, i, rest, hst, hi, by simpa using hr.symm⟩

/-- A completed instruction shows the text of its record. -/
theorem exec_renders {i : Instr} {s : State} {line : Text} (h : s.cur + i.length ≤ s.n)
    (hline : render (specRecord i) = line) : ∃ t r, exec i s = .next t ∧ t.out = s.out ++ [r] ∧ render r = line :=
  ⟨_, _, exec_of_fits h, rfl, hline⟩

end Machine

end Sys2Proof
end

section
/-! The statements about what the forms decode and emit (10_state.md, 30_encoding.md, 40_mov_regmem.md, 42_mov_acc.md,
60_exceptions.md). -/

namespace Sys2Proof.Proofs

open Sys2Proof Sys2Proof.Machine

/-- Settles O10: both opcode bytes read the same ModRM byte and operand, and `orient` places them by the direction bit. -/
theorem directionBitSwapsOperands : Obligations.DirectionBitSwapsOperands := by
  intro b tl rest i hb h
  obtain ⟨hf, hf', hsrc, hdst, hwidth⟩ := setDirectionBit hb
  obtain ⟨_, _, hbs, hform, hi⟩ := decode_eq_instr h
  cases hbs
  rw [Option.some.inj (hform.symm.trans hf)] at hi
  obtain ⟨_, m, tl', rm, hbs, hrm, rfl⟩ := decodeForm_regMem_eq_some hi
  cases hbs
  refine ⟨regMemInstr .regIsDst (rmWidth b) (regField m) rm, decode_of_decodeForm hf' ?decodes, fun s hfits => ?swaps⟩
  case decodes => rw [decodeForm_regMem, hrm, hdst, hwidth]; rfl
  case swaps =>
    refine ⟨specRmOperand (rmWidth b) rm, .reg (regField m) (rmWidth b), (exec_of_fits hfits).trans ?_,
      (exec_of_fits (by simpa using hfits)).trans ?_⟩
    · rw [hsrc, specRecord_regMemInstr]; rfl
    · rw [specRecord_regMemInstr, regMemInstr_length, regMemInstr_length]; rfl

/-- Settles O15: the step takes the error where the form's decoder answers `none`, which each form does by its number of
bytes. -/
theorem endOfStreamExactlyWhenTruncated : Obligations.EndOfStreamExactlyWhenTruncated := by
  intro s f d b hst hb hf
  rw [step_truncated_iff hst]
  cases f with
  | movImmReg =>
    have h := decodeForm_imm_eq_none_iff (b := b) (tl := s.mem.bytes (s.cur + 1) (s.n - (s.cur + 1)))
    rw [← remaining_of_byteAt hb, remaining_length] at h
    simpa using h
  | movRmReg => simpa using decodeForm_regMem_eq_none_iff hb hf
  | movMemAcc => simpa [decodeForm] using decodeAcc_eq_none_iff (instr := memAccInstr) (bs := s.remaining)
  | movAccMem => simpa [decodeForm] using decodeAcc_eq_none_iff (instr := accMemInstr) (bs := s.remaining)

/-- Settles O16: the fields have the values the statement gives, and each `mod` has its own equation of `decodeRm`. -/
theorem modRMSelectsOperands : Obligations.ModRMSelectsOperands := by
  intro s d b0 m w reg rm rec hst hb0 hm hw hreg hrm hrec
  obtain rfl : w = rmWidth b0 := hw.trans (rmWidth_by_value b0).symm
  obtain rfl : reg = regField m := BitVec.eq_of_toNat_eq (hreg.trans (regField_toNat m).symm)
  obtain rfl : rm = rmField m := BitVec.eq_of_toNat_eq (hrm.trans (rmField_toNat m).symm)
  have horient (x : Operand) : rec x = orient (rmDirection b0) (.reg (regField m) (rmWidth b0)) x := by
    rw [hrec, rmDirection_by_value]
    dsimp only
    split_ifs <;> rfl
  simp only [horient]
  refine ⟨fun hmod => ?reg, fun hmod hbase => ?base, fun hmod hdirect lo hi hlo hhi => ?direct, fun hmod d8 hd8 => ?disp8,
    fun hmod lo hi hlo hhi => ?disp16⟩
  case reg =>
    apply step_regMem (rm := .reg (rmField m)) hst hb0 hm
    rw [(modField_eq_iff m 0b11#2).2 hmod, decodeRm_reg]
  case base =>
    apply step_regMem (rm := .base (rmField m)) hst hb0 hm
    rw [(modField_eq_iff m 0b00#2).2 hmod, decodeRm_base hbase]
  case direct =>
    rw [← le16, le16_eq_toNat]
    apply step_regMem (rm := .direct (joinWord lo hi)) hst hb0 hm
    rw [(modField_eq_iff m 0b00#2).2 hmod, hdirect, bytes_of_byteAt_two hlo hhi, decodeRm_direct]
  case disp8 =>
    apply step_regMem (rm := .baseDisp8 (rmField m) d8) hst hb0 hm
    rw [(modField_eq_iff m 0b01#2).2 hmod, bytes_of_byteAt hd8, decodeRm_baseDisp8]
  case disp16 =>
    apply step_regMem (rm := .baseDisp16 (rmField m) (joinWord lo hi)) hst hb0 hm
    rw [(modField_eq_iff m 0b10#2).2 hmod, bytes_of_byteAt_two hlo hhi, decodeRm_baseDisp16]

/-- Settles O24, by the two ends of every meaning. -/
theorem frameOfEveryInstruction : Obligations.FrameOfEveryInstruction := by
  intro i s t h
  obtain ⟨-, rfl⟩ | ⟨-, rfl⟩ := exec_next_cases h
  · exact ⟨byteAt_congr rfl rfl, rfl, rfl, .inl rfl, fun _ => rfl, fun herr => by cases herr⟩
  · exact ⟨byteAt_congr rfl rfl, rfl, rfl, .inr rfl, fun hscan => (by cases hscan), fun _ => ⟨rfl, rfl⟩⟩

/-- Settles O31: the record is that of the instruction read, whose form fixes the shape of its operands. -/
theorem recordWidths : Obligations.RecordWidths := by
  intro s t f d b0 r hst hb0 h hr
  obtain ⟨f', d', i, rest, hst', hi, rfl⟩ := appended_record h hr
  obtain ⟨rfl, -⟩ := St.decoding.inj (hst.symm.trans hst')
  rw [remaining_of_byteAt hb0] at hi
  refine ⟨by cases (specRecord i).op; rfl, ?regMem, ?imm, ?memAcc, ?accMem⟩ <;> rintro rfl
  case regMem =>
    obtain ⟨_, m, tl, rm, hbs, -, rfl⟩ := decodeForm_regMem_eq_some hi
    obtain ⟨rfl, -⟩ := List.cons.inj hbs
    intro w hw
    rw [← rmWidth_by_value]
    exact orient_width (specRecord_regMemInstr ..) hw
  case imm =>
    obtain ⟨b, v, -, -, rfl⟩ | ⟨b, lo, hi, -, -, rfl⟩ := decodeForm_imm_eq_some hi
    · have hge := BitVec.le_toInt v
      have hlt := BitVec.toInt_lt (x := v)
      exact ⟨_, _, _, rfl, rfl, fun _ => by omega⟩
    · exact ⟨_, _, _, rfl, rfl, fun hw => by cases hw⟩
  case memAcc =>
    obtain ⟨b, lo, hi, -, rfl⟩ := decodeAcc_eq_some hi
    rw [specRecord_memAccInstr]
  case accMem =>
    obtain ⟨b, lo, hi, -, rfl⟩ := decodeAcc_eq_some hi
    rw [specRecord_accMemInstr]

/-- Settles O32: the record is that of the instruction read, and every instruction's record is in range. -/
theorem emittedOperandsInRange : Obligations.EmittedOperandsInRange := by
  intro s t r h hr
  obtain ⟨_, _, i, _, -, -, rfl⟩ := appended_record h hr
  obtain ⟨hdst, hsrc⟩ := specRecord_inRange i
  exact ⟨hdst, hsrc, specRecord_names_register i⟩

/-- Settles O23: `exec` runs the same `execMemAcc` for both loads and the same `execAccMem` for both stores. -/
theorem accumulatorBit0SelectsNothing : Obligations.AccumulatorBit0SelectsNothing := fun _ _ => ⟨rfl, rfl⟩

end Sys2Proof.Proofs
end

section
/-! SUPPORT. The placed table word, decimals, and the codes of the status register (log entry 4, rules R76, R22). -/

namespace Sys2Proof

theorem decode_of_decodeTableWord {nbits w : Nat} {i : Instr} (h : decodeTableWord nbits w = some i) :
    ∃ rest, decode (tableWordBytes nbits w) = .instr i rest := by
  unfold decodeTableWord at h
  cases hd : decode (tableWordBytes nbits w) with
  | instr j rest =>
    rw [hd] at h
    cases h
    exact ⟨rest, rfl⟩
  | unsupported | truncated | noBytes =>
    rw [hd] at h
    cases h

namespace Machine

/-! ### Placed instructions (log entry 4) -/

theorem bytes_writeBytes {m : Memory} (p : Nat) (bs : List Byte) (h : m.wf = true) :
    (m.writeBytes p bs).bytes p bs.length = bs := by
  apply List.ext_getElem?
  intro k
  rw [bytes_getElem?, read_writeBytes m p (p + k) bs h, if_pos (Nat.le_add_right p k), Nat.add_sub_cancel_left]
  split_ifs with hk
  · rw [List.getElem?_eq_getElem hk, Option.getD_some]
  · rw [List.getElem?_eq_none (Nat.not_lt.1 hk)]

/-- The placed bytes are the first ones at the cursor. -/
theorem placeInstr_remaining {s : State} (bs : List Byte) (h : s.mem.wf = true) :
    ∃ tl, (placeInstr bs s).remaining = bs ++ tl := by
  have hlen : max s.n (s.cur + bs.length) - s.cur = bs.length + (max s.n (s.cur + bs.length) - s.cur - bs.length) := by
    omega
  refine ⟨(s.mem.writeBytes s.cur bs).bytes (s.cur + bs.length) (max s.n (s.cur + bs.length) - s.cur - bs.length), ?_⟩
  change (s.mem.writeBytes s.cur bs).bytes s.cur (max s.n (s.cur + bs.length) - s.cur) = _
  rw [hlen, bytes_append, bytes_writeBytes s.cur bs h, ← hlen]

theorem placeInstr_st {b : Byte} {tl : List Byte} {f : Form} (s : State) (hf : classify b = some f) :
    (placeInstr (b :: tl) s).st = .decoding f (.start s.cur) := by
  simp [placeInstr, hf]

/-! ### Decimals (R76) -/

theorem digitChar_toNat (k : Nat) : (digitChar k).toNat = 48 + k % 10 := by
  have hdigit : ∀ d < 10, (Char.ofNat (48 + d)).toNat = 48 + d := by decide
  exact hdigit (k % 10) (Nat.mod_lt k (by decide))

theorem decDigits_value {fuel a : Nat} (h : a < fuel) :
    (decDigits fuel a).foldl (fun v c => 10 * v + (c.toNat - 48)) 0 = a := by
  induction fuel generalizing a with
  | zero => omega
  | succ fuel ih =>
    unfold decDigits
    split_ifs with hlt
    · simp only [List.foldl_cons, List.foldl_nil, digitChar_toNat]
      omega
    · simp only [List.foldl_append, ih (show a / 10 < fuel by omega), List.foldl_cons, List.foldl_nil, digitChar_toNat]
      omega

theorem decDigits_are_digits (fuel a : Nat) : ∀ c ∈ decDigits fuel a, 48 ≤ c.toNat ∧ c.toNat ≤ 57 := by
  have hdigit : 48 ≤ (digitChar a).toNat ∧ (digitChar a).toNat ≤ 57 := by
    rw [digitChar_toNat]
    omega
  induction fuel generalizing a with
  | zero => simp [decDigits]
  | succ fuel ih =>
    unfold decDigits
    split_ifs
    · simpa using hdigit
    · simp only [List.forall_mem_append, List.forall_mem_singleton]
      exact ⟨ih (a / 10) (by rw [digitChar_toNat]; omega), hdigit⟩

theorem decDigits_ne_nil (fuel a : Nat) : decDigits (fuel + 1) a ≠ [] := by
  unfold decDigits
  split_ifs <;> simp

/-- The leading digit of a positive number is that of its quotient by 10, down to a number below 10. -/
theorem decDigits_head {fuel a : Nat} (h : a < fuel) (hpos : 0 < a) : (decDigits fuel a).head? ≠ some '0' := by
  induction fuel generalizing a with
  | zero => omega
  | succ fuel ih =>
    unfold decDigits
    split_ifs with hlt
    · intro h0
      have h48 : (digitChar a).toNat = 48 := congrArg Char.toNat (Option.some.inj h0)
      rw [digitChar_toNat] at h48
      omega
    · obtain ⟨fuel, rfl⟩ := Nat.exists_eq_succ_of_ne_zero (show fuel ≠ 0 by omega)
      rw [List.head?_append_of_ne_nil _ (decDigits_ne_nil fuel _)]
      exact ih (by omega) (by omega)

/-! ### Codes (R22) -/

theorem code_eq_two_iff {st : St} : st.code = 2#3 ↔ ∃ f d, st = .decoding f d := by
  cases st <;> simp [St.code]

theorem formCode_injective {f g : Form} (h : formCode f = formCode g) : f = g := by
  cases f <;> cases g <;> simp_all [formCode]

/-- Outside `Decoding` the code alone tells the driver states apart. -/
theorem eq_of_code_eq {st st' : St} (h : st.code = st'.code) (hne : st.code ≠ 2#3) : st = st' := by
  cases st <;> cases st' <;> simp_all [St.code]

end Machine

end Sys2Proof
end

section
/-! The statements about the cursor primitives, the interface, the codes and the text of records. -/

namespace Sys2Proof.Proofs

open Sys2Proof Sys2Proof.Machine

/-- Settles O46: the decoder reads the table word's bytes at the cursor, and what follows them has no part in it. -/
theorem fetchWordIsRunNext : Obligations.FetchWordIsRunNext := by
  intro s nbits w i hwf hw
  obtain ⟨rest, hdec⟩ := decode_of_decodeTableWord hw
  obtain ⟨b, tl, hbs, hf, hi⟩ := decode_eq_instr hdec
  obtain ⟨pre, hpre, hread⟩ := decodeForm_reads_prefix hi
  obtain ⟨more, hrem⟩ := placeInstr_remaining (tableWordBytes nbits w) hwf
  have hst : (s.withFetchWord nbits w).st = .decoding i.form (.start s.cur) := by
    rw [State.withFetchWord, hbs, placeInstr_st s hf]
  refine step_decoding_exec hst (fetchInstr_of_decodeForm (rest := rest ++ more) ?_)
  rw [State.withFetchWord, hrem, hpre, List.append_assoc, hread]

/-- Settles O45, by the bound that `State.consume` tests. -/
theorem consumeIsAllOrNothing : Obligations.ConsumeIsAllOrNothing := by
  intro s k d
  refine ⟨fun hshort => if_pos hshort, fun hfits => ⟨_, if_neg (Nat.not_lt.2 hfits), bytes_length .., fun j hj => ?_⟩⟩
  rw [bytes_getElem?, if_pos hj, State.byteAt, if_pos (by omega)]

/-- Settles O44: the codes are closed values; `Decoding` alone has the code 2, and there the form field is injective. -/
theorem statusCodes : Obligations.StatusCodes := by
  refine ⟨rfl, rfl, fun _ _ => rfl, rfl, rfl, fun _ => ⟨rfl, rfl, rfl, rfl⟩, fun st => ?formField,
    fun st st' hcode hform => ?equal, fun st => ?bound, rfl, rfl, rfl, fun c => ?cause⟩
  case formField => cases st <;> simp [St.formField, St.code]
  case equal =>
    by_cases h : st.code = 2#3
    · obtain ⟨f, d, rfl⟩ := code_eq_two_iff.1 h
      obtain ⟨f', d', rfl⟩ := code_eq_two_iff.1 (hcode.symm.trans h)
      obtain rfl := formCode_injective (Option.some.inj hform)
      exact .inr ⟨f, d, d', rfl, rfl⟩
    · exact .inl (eq_of_code_eq hcode h)
  case bound => cases st <;> simp [St.code]
  case cause => cases c <;> decide

/-- Settles O50: the line is an equation of `render`, the two shapes are the branches of `renderOp`. -/
theorem renderLineAndMemory : Obligations.RenderLineAndMemory := by
  refine ⟨fun _ _ => rfl, fun b => ?zero, fun b d hd => ?nonzero⟩
  case zero => simp [renderOp]
  case nonzero => simp [renderOp, hd]

/-- Settles O51, by induction on the digits; the fuel of `decU` exceeds the number. -/
theorem decimalIsShortest : Obligations.DecimalIsShortest := by
  refine ⟨fun a => ⟨decDigits_value (Nat.lt_succ_self a), decDigits_are_digits _ a, decDigits_ne_nil a a, fun h0 => ?zero⟩,
    fun v => ?signed⟩
  case zero =>
    obtain rfl | hpos := Nat.eq_zero_or_pos a
    · rfl
    · exact absurd h0 (decDigits_head (Nat.lt_succ_self a) hpos)
  case signed =>
    cases v with
    | ofNat a => exact ⟨fun _ => rfl, fun hneg => absurd hneg (by simp)⟩
    | negSucc k => exact ⟨fun hnonneg => absurd hnonneg (by simp), fun _ => rfl⟩

/-- Settles O52: the bytes are the encodings of the four register forms, and the line is that of `specRecord`. -/
theorem registerPairsRender : Obligations.RegisterPairsRender := by
  intro s reg rm hfits
  refine ⟨decode_encode (i := .movRm8R8 reg (.reg rm)) rfl [], decode_encode (i := .movRm16R16 reg (.reg rm)) rfl [],
    decode_encode (i := .movR8Rm8 reg (.reg rm)) rfl [], decode_encode (i := .movR16Rm16 reg (.reg rm)) rfl [],
    ?_, ?_, ?_, ?_⟩
  all_goals exact exec_renders hfits rfl

end Sys2Proof.Proofs
end
